-- ==== Sys2Proof/Word.lean ====
section
/-! DEFINITION. The word, byte and index types of the block (spec/00_scope.md R8, R12; spec/10_state.md R22). -/

namespace Sys2Proof

/-- One byte on the output port, in a response register or in a table of the configuration (R8, R46). -/
abbrev Byte := BitVec 8

/-- One 32-bit unit of the command port (R44, R57). -/
abbrev Word := BitVec 32

/-- A joint index that is in range: `NJ = 6` joints, 0 to 5 (R8, R21). -/
abbrev JointIdx := Fin 6

/-- A phase index: the cycle length is `NP = 4`, indices 0 to 3 (R8, R22). -/
abbrev PhaseIdx := Fin 4

/-- Bit 0 of a bus byte, the enable/strobe bit: `ENABLE_BIT = 0x01` (R8, R34, R43). -/
def enableBit : Byte := 0x01

end Sys2Proof
end

