-- ==== Sys2Proof/Syntax.lean ====
section
/-! DEFINITION. The decoded command (spec/30_encoding.md R74): one constructor for each row of spec/opcode_table.json, with
the operands raw, so that their validation belongs to the machine. -/

namespace Sys2Proof

/-- The commands of the block (R61, R74). Operand words are kept as they were presented (R59): `J` and `D` are read as u32
and `S` as s32 only by Machine/Operands.lean. -/
inductive Instr where
  /-- STEP: one step of joint `j` in direction `d` (R62, R91). -/
  | step (j d : Word)
  /-- DRIVE: `s` steps of joint `j` in direction `d` (R63, R92). -/
  | drive (j s d : Word)
  /-- DRIVE_MULTI: joint indices and signed step counts, lane by lane (R64, R93). -/
  | driveMulti (js ss : List Word)
  /-- SET_ENERGIZED: `false` de-energizes, `true` re-energizes (R65, R100, R101). -/
  | setEnergized (en : Bool)
  /-- ADDRESS_OF: the address bits of joint `j` (R67, R81). -/
  | addressOf (j : Word)
  /-- A header word that matches no row (R70, R113). -/
  | illegal (hdr : Word)
deriving DecidableEq, Repr

end Sys2Proof
end

