-- ==== Sys2Proof/WellFormed.lean ====
section
/-! DEFINITION. Which commands the encoding can express (spec/30_encoding.md R64, R70, R71). -/

namespace Sys2Proof

/-- One row of the opcode table: a header belongs to it when `hdr &&& mask = value` (R72). -/
structure OpcodeRow where
  mask : Word
  value : Word
deriving DecidableEq, Repr

/-- The five legal rows: STEP, DRIVE, DRIVE_MULTI, SET_ENERGIZED, ADDRESS_OF (R61, R72). -/
def opcodeRows : List OpcodeRow :=
  [⟨0xFFFFFFFF, 0x01000000⟩, ⟨0xFFFFFFFF, 0x02000000⟩, ⟨0xFFFF0000, 0x03000000⟩, ⟨0xFFFFFFFE, 0x04000000⟩,
   ⟨0xFFFFFFFF, 0x05000000⟩]

/-- A header that belongs to a row. -/
def OpcodeRow.covers (r : OpcodeRow) (hdr : Word) : Bool := hdr &&& r.mask == r.value

/-- A header that matches some row with its reserved bits zero (R70, R71). -/
def legalHeader (hdr : Word) : Bool := opcodeRows.any (·.covers hdr)

/-- A list of operand words that an 8-bit count can name: 0 to 255 entries (R64). -/
def countFits (ws : List Word) : Bool := decide (ws.length ≤ 255)

/-- The commands that some sequence of words encodes (R62 to R67, R70). -/
def Instr.wf : Instr → Bool
  | .step _ _ => true
  | .drive _ _ _ => true
  | .driveMulti js ss => countFits js && countFits ss
  | .setEnergized _ => true
  | .addressOf _ => true
  | .illegal hdr => !legalHeader hdr

end Sys2Proof
end

