-- ==== Sys2Proof/Decode.lean ====
section
/-! DEFINITION. The decoder and the encoder of the command port (spec/30_encoding.md R57 to R74; byte order R44). -/

namespace Sys2Proof

/-- The opcode field `hdr[31:24]` (R58). -/
def hdrOpcode (hdr : Word) : BitVec 8 := hdr.extractLsb' 24 8

/-- `NJW = hdr[15:8]`, the number of joint-index words (R58, R64). -/
def hdrNJW (hdr : Word) : Nat := (hdr.extractLsb' 8 8).toNat

/-- `NSW = hdr[7:0]`, the number of step-count words (R58, R64). -/
def hdrNSW (hdr : Word) : Nat := (hdr.extractLsb' 0 8).toNat

/-- `EN = hdr[0]` (R58, R65). -/
def hdrEN (hdr : Word) : Bool := hdr.getLsbD 0

/-- Format HN: bits `[23:0]` are reserved and zero (R58, R71). -/
def hnReservedZero (hdr : Word) : Bool := hdr.extractLsb' 0 24 == 0

/-- Format HM: bits `[23:16]` are reserved and zero (R58, R71). -/
def hmReservedZero (hdr : Word) : Bool := hdr.extractLsb' 16 8 == 0

/-- Format HE: bits `[23:1]` are reserved and zero (R58, R71). -/
def heReservedZero (hdr : Word) : Bool := hdr.extractLsb' 1 23 == 0

/-- What a header word says (R61). -/
inductive HeaderClass where
  | step
  | drive
  | driveMulti (njw nsw : Nat)
  | setEnergized (en : Bool)
  | addressOf
  | illegal
deriving DecidableEq, Repr

/-- The opcode map of R61 with the reserved fields of R71. -/
def classify (hdr : Word) : HeaderClass :=
  if hdrOpcode hdr = 0x01 ∧ hnReservedZero hdr = true then .step
  else if hdrOpcode hdr = 0x02 ∧ hnReservedZero hdr = true then .drive
  else if hdrOpcode hdr = 0x03 ∧ hmReservedZero hdr = true then .driveMulti (hdrNJW hdr) (hdrNSW hdr)
  else if hdrOpcode hdr = 0x04 ∧ heReservedZero hdr = true then .setEnergized (hdrEN hdr)
  else if hdrOpcode hdr = 0x05 ∧ hnReservedZero hdr = true then .addressOf
  else .illegal

/-- The length of a command in words, a function of its header alone (R72). -/
def commandLength (hdr : Word) : Nat :=
  if hdr = 0x01000000 then 3
  else if hdr = 0x02000000 then 4
  else if hdr &&& 0xFFFF0000 = 0x03000000 then 1 + hdrNJW hdr + hdrNSW hdr
  else if hdr &&& 0xFFFFFFFE = 0x04000000 then 1
  else if hdr = 0x05000000 then 2
  else 1

/-- The k-th operand word. A decoder asks only for words that are there; a word that is not reads as 0. -/
def operandWord (ops : List Word) (k : Nat) : Word := ops.getD k 0

/-- The command of a header and its operand words (R74). -/
def decodeCommand (hdr : Word) (ops : List Word) : Instr :=
  match classify hdr with
  | .step => .step (operandWord ops 0) (operandWord ops 1)
  | .drive => .drive (operandWord ops 0) (operandWord ops 1) (operandWord ops 2)
  | .driveMulti njw nsw => .driveMulti (ops.take njw) ((ops.drop njw).take nsw)
  | .setEnergized en => .setEnergized en
  | .addressOf => .addressOf (operandWord ops 0)
  | .illegal => .illegal hdr

/-- Why a stream of words holds no command yet (R45, R77). -/
inductive DecodeStop where
  /-- No header word is there. -/
  | noHeader
  /-- A header is there and some of its operand words are not: a prefix of a command is not a command. -/
  | partialCommand
deriving DecidableEq, Repr

/-- What the decoder makes of a stream of words. -/
inductive Decoded where
  | command (i : Instr) (rest : List Word)
  | rejected (why : DecodeStop)
deriving DecidableEq, Repr

/-- The decoder: it reads the header, computes the length and waits for that many words (R72, R77). -/
def decodeWords : List Word → Decoded
  | [] => .rejected .noHeader
  | hdr :: rest =>
    if rest.length + 1 < commandLength hdr then .rejected .partialCommand
    else .command (decodeCommand hdr (rest.take (commandLength hdr - 1))) (rest.drop (commandLength hdr - 1))

/-- A command word of a byte-wide transport: the least significant byte first (R44). -/
def wordOfBytes (b0 b1 b2 b3 : Byte) : Word := b3 ++ b2 ++ b1 ++ b0

/-- The bytes of a command word in the order a byte-wide transport sends them (R44). -/
def bytesOfWord (w : Word) : List Byte :=
  [w.extractLsb' 0 8, w.extractLsb' 8 8, w.extractLsb' 16 8, w.extractLsb' 24 8]

/-- The whole words of a byte stream, and the bytes of a word that is not whole yet (R44, R45). -/
def wordsOfBytes : List Byte → List Word × List Byte
  | b0 :: b1 :: b2 :: b3 :: bs => (wordOfBytes b0 b1 b2 b3 :: (wordsOfBytes bs).1, (wordsOfBytes bs).2)
  | bs => ([], bs)

/-- The decoder on a byte-wide transport: total on any bytes, a partial word or command is rejected by name (R44, R45). -/
def decodeBytes (bs : List Byte) : Decoded := decodeWords (wordsOfBytes bs).1

/-- The header word of a command (R62 to R67; an illegal command is its header, R70). -/
def headerWord : Instr → Word
  | .step _ _ => 0x01000000
  | .drive _ _ _ => 0x02000000
  | .driveMulti js ss => 0x03000000 ||| (BitVec.ofNat 32 js.length <<< 8) ||| BitVec.ofNat 32 ss.length
  | .setEnergized en => 0x04000000 ||| (BitVec.ofBool en).setWidth 32
  | .addressOf _ => 0x05000000
  | .illegal hdr => hdr

/-- The operand words of a command, in the order of R60 (R62 to R67). -/
def operandWords : Instr → List Word
  | .step j d => [j, d]
  | .drive j s d => [j, s, d]
  | .driveMulti js ss => js ++ ss
  | .setEnergized _ => []
  | .addressOf j => [j]
  | .illegal _ => []

/-- The words of a command (R57, R62 to R67). -/
def encode (i : Instr) : List Word := headerWord i :: operandWords i

/-- The bytes of a command on a byte-wide transport (R44). -/
def encodeBytes (i : Instr) : List Byte := (encode i).flatMap bytesOfWord

/-- The longest command has 511 words (R72). -/
def maxCommandLength : Nat := 511

/-- Word `k` of an instruction whose bits are `w`, numbered as spec/opcode_table.json numbers them; bits from `nbits` on are
zero. -/
def tableWord (nbits w k : Nat) : Word := BitVec.ofNat 32 ((w % 2 ^ nbits) >>> (32 * k))

/-- The words of that instruction, as the command port carries them: as many as its header asks for. -/
def tableWords (nbits w : Nat) : List Word :=
  (List.range (commandLength (tableWord nbits w 0))).map (tableWord nbits w)

/-- The instruction the decoder reads from an instruction whose bits are `w`; the words go over the byte-wide transport of
R44, first word first. -/
def decodeTableWord (nbits w : Nat) : Option Instr :=
  match decodeBytes ((tableWords nbits w).flatMap bytesOfWord) with
  | .command i _ => some i
  | .rejected _ => none

end Sys2Proof
end

