-- ==== Sys2Proof/Config.lean ====
section
/-! DEFINITION. What an implementation of the block fixes, and what the spec leaves free.

The parameters of spec/00_scope.md R9 are a record `Params`; a `Config` is a record that has passed the checks of R10 and
R11 (an ill-formed one cannot be built, R133). The configuration a block was built with and the order of the transitions
that R146 leaves open are opaque constants: no proof can see a value of either. -/

namespace Sys2Proof

/-- `POS_WIDTH`: `unbounded` is the normative reading, a finite width is a two's-complement counter (R9, R23, D20). -/
inductive PosWidth where
  | unbounded
  | bits (n : Nat)
deriving DecidableEq, Repr

/-- The six named axes of the arm (R17). -/
inductive Axis where
  | gripper | wristRoll | wristPitch | upperArm | shoulder | base
deriving DecidableEq, Repr

/-- The implementation parameters (R9; `JOINT_NAME` is D33). The source names them and gives no value. -/
structure Params where
  /-- `ADDR[0..5]`: the address bits of each joint (R9, R79). -/
  addr : Vector Byte 6
  /-- `PHASE[0..3]`: the phase-pattern table (R9, R11). -/
  phase : Vector Byte 4
  /-- `T_MIN`: the minimum pulse interval in ticks (R9, R84). -/
  tMin : Nat
  /-- `TICK`: the length of one tick, in a unit of time the spec does not fix; informational, no rule reads it (R9). -/
  tick : Nat
  /-- `POS_WIDTH` (R9, R23). -/
  posWidth : PosWidth
  /-- `JOINT_NAME[0..5]`: informational, no rule reads it (D33). -/
  jointName : Vector Axis 6
deriving DecidableEq, Repr

/-- R10: every address entry has bit 0 clear. -/
def Params.addrStrobeClear (p : Params) : Bool := decide (∀ j : JointIdx, p.addr[j].getLsbD 0 = false)

/-- R10: the six address entries are pairwise distinct. -/
def Params.addrDistinct (p : Params) : Bool := decide (∀ i j : JointIdx, p.addr[i] = p.addr[j] → i = j)

/-- R11: every phase entry has bit 0 clear. -/
def Params.phaseStrobeClear (p : Params) : Bool := decide (∀ q : PhaseIdx, p.phase[q].getLsbD 0 = false)

/-- R9: a finite position width is a natural number of at least 2. -/
def Params.posWidthOk (p : Params) : Bool :=
  match p.posWidth with
  | .unbounded => true
  | .bits n => decide (2 ≤ n)

/-- R9: the length of a tick is positive. -/
def Params.tickPositive (p : Params) : Bool := decide (0 < p.tick)

/-- Well-formedness of the parameters: R9's constraints, R10 and R11. -/
def Params.wf (p : Params) : Bool :=
  p.addrStrobeClear && p.addrDistinct && p.phaseStrobeClear && p.posWidthOk && p.tickPositive

/-- Why a configuration is refused at build (R10, R11, R133). -/
inductive ConfigProblem where
  | addrBitZeroSet | addrRepeated | phaseBitZeroSet | posWidthTooSmall | tickNotPositive
deriving DecidableEq, Repr

/-- A well-formed configuration. R10, R11: "A model refuses a configuration that fails this check": an ill-formed
configuration is no value of this type. -/
structure Config where
  params : Params
  wf : params.wf = true
deriving DecidableEq, Repr

/-- The reference configuration `REF` (R9, D11 to D13): a test configuration, no claim about the hardware. The spec gives it
no `TICK` and no `JOINT_NAME`; no rule reads the two. -/
def Params.ref : Params where
  addr := #v[0x20, 0x40, 0x60, 0x80, 0xA0, 0xC0]
  phase := #v[0x06, 0x0C, 0x18, 0x12]
  tMin := 10
  tick := 1
  posWidth := .unbounded
  jointName := #v[.gripper, .wristRoll, .wristPitch, .upperArm, .shoulder, .base]

/-- `REF` as a configuration, for tests only. -/
def Config.ref : Config := ⟨Params.ref, by decide⟩

/-- Building a configuration: the first check that fails names the refusal (R10, R11, R133). -/
def Config.build (p : Params) : Except ConfigProblem Config :=
  if h : p.wf = true then .ok ⟨p, h⟩
  else if p.addrStrobeClear = false then .error .addrBitZeroSet
  else if p.addrDistinct = false then .error .addrRepeated
  else if p.phaseStrobeClear = false then .error .phaseBitZeroSet
  else if p.posWidthOk = false then .error .posWidthTooSmall
  else .error .tickNotPositive

/-- Some element of an inhabited type, with no body: nothing can be proved of which one it is. -/
opaque Config.anyOf (α : Type) [Inhabited α] : α

/-- The configuration the block was built with (R34): SOME well-formed configuration. `Config.ref` only shows that one
exists, `Config.anyOf` does not read it. -/
def Config.built : Config := @Config.anyOf Config ⟨Config.ref⟩

/-- One transition of the world, chosen by the host, the block or the environment (R19, R146). -/
inductive Move where
  /-- A host presents 32-bit words on the command port (R41, R57, R77). -/
  | present (ws : List Word)
  /-- A byte-wide transport delivers the next byte of a command word (R44). -/
  | presentByte (b : Byte)
  /-- The block accepts the command presented on the port (R90). -/
  | accept
  /-- The block takes its sequencer transition or its completion (R88, R89). -/
  | sequencer
  /-- Time advances (R144). -/
  | tick (delta : Nat)
  /-- The environment asserts reset (R130). -/
  | reset
deriving DecidableEq, Repr, Inhabited

/-- FREE VALUE: the n-th transition that nobody has scheduled. "At each moment any enabled transition may be taken"
(R119, R146); the spec fixes no order. -/
opaque Config.freeMove : Nat → Move

end Sys2Proof
end

