-- ==== Sys2Proof/Machine/State.lean ====
section
/-! DEFINITION. The world of the block as plain data (spec/10_state.md R20): the block's state, the output port, the time, the
host's side of the command port, the configuration it was built with, and the moves that are already scheduled. -/

namespace Sys2Proof.Machine

/-- The two directions of a step (R16). -/
inductive Dir where
  | forward
  | backward
deriving DecidableEq, Repr

/-- A micro-operation of a plan (R29). -/
inductive MicroOp where
  /-- Advance joint `j` one step and pulse it (R86). -/
  | stepOp (j : JointIdx) (d : Dir)
  /-- Pulse joint `j` without advancing it: at its held phase, or with the address bits only (R87). -/
  | strobeOp (j : JointIdx) (on : Bool)
  /-- Write `motors_off` and every `energized` (R103). -/
  | setOff (b : Bool)
deriving DecidableEq, Repr

/-- The command a busy sequencer is executing (R28). -/
inductive Kind where
  | step | drive | driveMulti | setEnergized
deriving DecidableEq, Repr

/-- The sequencer: `Idle`, or `Busy` with the micro-operations still to be performed, head first (R28). -/
inductive Seq where
  | idle
  | busy (kind : Kind) (plan : List MicroOp)
deriving DecidableEq, Repr

/-- One joint's entry of the per-joint register file (R21). -/
structure CommutationState where
  /-- `phase_index`, in [0, 3] (R22). -/
  phaseIndex : PhaseIdx
  /-- `position_count`, positive = Forward (R23). -/
  positionCount : Int
  /-- `energized`, false while globally de-energized (R24). -/
  energized : Bool
deriving DecidableEq, Repr

/-- Everything the spec gives the machine (R20), and two fields of the model's own (`agenda`, `choices`). -/
structure State where
  /-- The configuration the block was built with; no transition writes it (R34). -/
  cfg : Config
  /-- The six `CommutationState` entries (R21). -/
  joints : Vector CommutationState 6
  /-- `motors_off`, the global de-energize gate (R26). -/
  motorsOff : Bool
  /-- `last_pulse_timestamp` in ticks (R27). -/
  last : Nat
  /-- The sequencer (R28). -/
  seq : Seq
  /-- The response register `status` (R30). -/
  status : Byte
  /-- The response register `data` (R32). -/
  data : Byte
  /-- The last byte written to the output port, none before the first write (R33). -/
  bus : Option Byte
  /-- Every write to the output port as (time, byte), in issue order (R33). -/
  portLog : List (Nat × Byte)
  /-- The environment's current time in ticks (R31). -/
  now : Nat
  /-- The words the hosts have presented on the command port and the block has not accepted, first word first (R57, R77). -/
  commandPort : List Word
  /-- The bytes of a command word that a byte-wide transport has not finished (R44, R45). -/
  partialWord : List Byte
  /-- The MODEL's own: the moves already scheduled, oldest first (R146). -/
  agenda : List Move
  /-- The MODEL's own: how many moves have been free choices; the argument of `Config.freeMove` (R146). -/
  choices : Nat
deriving DecidableEq, Repr

/-- Nobody raises a fault: "The block has no traps" and "There is no condition in this domain that is fatal" (R107). The type
has no constructor, so that the machine never stops is a fact of its type. -/
inductive Fault where
deriving DecidableEq, Repr

/-- Why a step has no meaning. -/
inductive Refusal where
  /-- Raised by an arm of `exec` whose instruction has no meaning yet; safe. No arm raises it: every row of the table has its
  meaning. -/
  | notModelled (mnemonic : String)
deriving DecidableEq, Repr

/-- A joint after reset (R39, R130). -/
def CommutationState.initial : CommutationState := { phaseIndex := 0, positionCount := 0, energized := true }

/-- The machine right after a reset at time 0 (R39, R130; DESIGN CHOICE, notes/assumptions 5, 6, 7 and 2: the time of that
reset, an empty port history, nothing presented, nothing scheduled). -/
def State.reset : State where
  cfg := Config.built
  joints := Vector.replicate 6 CommutationState.initial
  motorsOff := false
  last := 0
  seq := .idle
  status := 0x00
  data := 0x00
  bus := none
  portLog := []
  now := 0
  commandPort := []
  partialWord := []
  agenda := []
  choices := 0

end Sys2Proof.Machine
end

