-- ==== Sys2Proof/Machine/Flags.lean ====
section
/-! DEFINITION. The block's Boolean status and the codes of its diagnostic channel (spec/10_state.md R30, R35;
spec/60_exceptions.md R107). The block has no arithmetic condition codes (R35). -/

namespace Sys2Proof.Machine

/-- The error taxonomy (R107). -/
inductive Diagnostic where
  | invalidJointIndex
  | invalidDirection
  | invalidStepCount
  | lengthMismatch
  | motorsDisabled
  | illegalCommand
deriving DecidableEq, Repr

/-- The code of a diagnostic in `status` (R30, R107). -/
def Diagnostic.code : Diagnostic → Byte
  | .invalidJointIndex => 0x01
  | .invalidDirection => 0x02
  | .invalidStepCount => 0x03
  | .lengthMismatch => 0x04
  | .motorsDisabled => 0x05
  | .illegalCommand => 0x06

/-- `status` when the last command completed without a diagnostic (R30). -/
def statusOK : Byte := 0x00

/-- `status` while a command has been accepted and has not completed (R30). -/
def statusBusy : Byte := 0x80

/-- The sequencer is `Busy` (R28, R35). -/
def Seq.isBusy : Seq → Bool
  | .idle => false
  | .busy _ _ => true

/-- SetOff: `motors_off <- b`, `energized[*] <- not b`; the only writer of the two but reset (R35, R103). -/
def State.setOff (b : Bool) (s : State) : State :=
  { s with
    motorsOff := b
    joints := Vector.ofFn fun j : JointIdx => { s.joints[j] with energized := !b } }

end Sys2Proof.Machine
end

