-- ==== Sys2Proof/Machine/Operands.lean ====
section
/-! DEFINITION. The operand forms: joint, direction and step-count words (spec/30_encoding.md R59, R66, R68, R69) and the
arithmetic on directions, phases and positions (R13, R16, R22, R23). -/

namespace Sys2Proof.Machine

/-- `J`, read as u32: the joint it names when it is at most 5. No wrapping or masking (R68). -/
def jointOperand (w : Word) : Option JointIdx := if h : w.toNat < 6 then some ⟨w.toNat, h⟩ else none

/-- Every entry of a list of joint operands, or none when an entry is out of range (R93, R108). -/
def jointOperands : List Word → Option (List JointIdx)
  | [] => some []
  | w :: ws =>
    match jointOperand w, jointOperands ws with
    | some j, some js => some (j :: js)
    | _, _ => none

/-- `D`, read as u32: 0 is Forward, 1 is Backward, every other value is invalid (R66). -/
def dirOperand (w : Word) : Option Dir :=
  if w = 0 then some .forward else if w = 1 then some .backward else none

/-- `S`, read as s32 (R59, R69). -/
def stepCount (w : Word) : Int := w.toInt

/-- `delta(Forward) = +1`, `delta(Backward) = -1` (R16). -/
def Dir.delta : Dir → Int
  | .forward => 1
  | .backward => -1

/-- The direction a signed step count selects (R69, R94). -/
def signDir (s : Int) : Dir := if 0 < s then .forward else .backward

/-- The phase one step on: forward wraps 3 to 0, backward wraps 0 to 3 (R22, R86). -/
def advancePhase (p : PhaseIdx) : Dir → PhaseIdx
  | .forward => p + 1
  | .backward => p - 1

/-- A position as the counter holds it: exact when unbounded, else modulo `2^POS_WIDTH` in two's complement (R23). -/
def wrapPosition : PosWidth → Int → Int
  | .unbounded, x => x
  | .bits n, x => x.bmod (2 ^ n)

end Sys2Proof.Machine
end

