-- ==== Sys2Proof/Machine/Ops.lean ====
section
/-! DEFINITION. The named operations every meaning and every transition is made of: reading the per-joint file, the port write,
the pulse and its gate, the micro-operations, the diagnostic (the block's only exception), acceptance and completion. -/

namespace Sys2Proof.Machine

/-- `phase[j]` (R14, R22). -/
def State.phase (s : State) (j : JointIdx) : PhaseIdx := s.joints[j].phaseIndex

/-- `pos[j]` (R14, R23). -/
def State.pos (s : State) (j : JointIdx) : Int := s.joints[j].positionCount

/-- `energized[j]` (R14, R24). -/
def State.energized (s : State) (j : JointIdx) : Bool := s.joints[j].energized

/-- `ADDR[j]` (R9, R79). -/
def State.addr (s : State) (j : JointIdx) : Byte := s.cfg.params.addr[j]

/-- `PHASE[p]` (R9, R34). -/
def State.phasePattern (s : State) (p : PhaseIdx) : Byte := s.cfg.params.phase[p]

/-- `T_MIN` (R9, R84). -/
def State.tMin (s : State) : Nat := s.cfg.params.tMin

/-- `POS_WIDTH` (R9, R23). -/
def State.posWidth (s : State) : PosWidth := s.cfg.params.posWidth

/-- `PortWrite(b)`: append `(now, b)` to the port history and set the bus (R15, R47). -/
def State.portWrite (b : Byte) (s : State) : State :=
  { s with portLog := s.portLog ++ [(s.now, b)], bus := some b }

/-- A pulse on byte `b`: strobe high, strobe low, then `last <- now`, all in one transition (R49, R83). -/
def State.pulse (b : Byte) (s : State) : State :=
  let written := (s.portWrite (b ||| enableBit)).portWrite b
  { written with last := s.now }

/-- The interval gate `now - last >= T_MIN` over the integers (R84). -/
def State.gateOpen (s : State) : Bool := decide (s.last + s.tMin ≤ s.now)

/-- `step_byte(j) = ADDR[j] | PHASE[phase[j]]` (R85). -/
def State.stepByte (s : State) (j : JointIdx) : Byte := s.addr j ||| s.phasePattern (s.phase j)

/-- Joint `j` one step on: phase and position; nothing else (R86). -/
def State.advance (j : JointIdx) (d : Dir) (s : State) : State :=
  { s with
    joints := s.joints.set j
      { s.joints[j] with
        phaseIndex := advancePhase (s.phase j) d
        positionCount := wrapPosition s.posWidth (s.pos j + d.delta) } }

/-- StepOp, the commutation step: advance, then pulse the composed byte of the new phase (R86). -/
def State.stepOp (j : JointIdx) (d : Dir) (s : State) : State :=
  let advanced := s.advance j d
  advanced.pulse (advanced.stepByte j)

/-- StrobeOp: pulse a joint at its held phase (`on`), or with its address bits only (R87). -/
def State.strobeOp (j : JointIdx) (on : Bool) (s : State) : State :=
  if on then s.pulse (s.stepByte j) else s.pulse (s.addr j)

/-- Perform one micro-operation (R86, R87, R103). -/
def State.perform : MicroOp → State → State
  | .stepOp j d, s => s.stepOp j d
  | .strobeOp j on, s => s.strobeOp j on
  | .setOff b, s => s.setOff b

/-- The micro-operations that are pulses, and so gated by the interval (R29, R84). -/
def MicroOp.isPulse : MicroOp → Bool
  | .stepOp _ _ => true
  | .strobeOp _ _ => true
  | .setOff _ => false

/-- TAKING THE BLOCK'S ONLY EXCEPTION, `Diag(code)`: `status` and `data` are written, the block stays Idle, nothing is saved and
nothing else changes, so there is nothing to return from (R107, R114, R118). -/
def State.diag (e : Diagnostic) (s : State) : State := { s with status := e.code, data := 0x00 }

/-- A command that ends with OK at once, with no pulse (R90). -/
def State.finishAtOnce (s : State) : State := { s with status := statusOK, data := 0x00 }

/-- A plan is set: the block is Busy (R90). -/
def State.beginPlan (k : Kind) (plan : List MicroOp) (s : State) : State :=
  { s with seq := .busy k plan, status := statusBusy, data := 0x00 }

/-- Completion of a plan (R89). -/
def State.complete (s : State) : State := { s with seq := .idle, status := statusOK, data := 0x00 }

/-- A host's transition has no move while the block is Busy (R54, R90, R138). -/
def State.whenIdle (act : State → State) (s : State) : State :=
  match s.seq with
  | .idle => act s
  | .busy _ _ => s

/-- What acceptance does with the outcome of `validate` (R90). -/
def State.conclude (k : Kind) (v : Except Diagnostic (List MicroOp)) (s : State) : State :=
  match v with
  | .error e => s.diag e
  | .ok [] => s.finishAtOnce
  | .ok (op :: ops) => s.beginPlan k (op :: ops)

/-- Acceptance of a command with a plan: enabled only when Idle (R90). -/
def State.acceptPlan (k : Kind) (v : Except Diagnostic (List MicroOp)) (s : State) : State :=
  s.whenIdle (·.conclude k v)

/-- What a host reads from `status` (R30, R46, R124): reading has no side effect. -/
def State.readStatus (s : State) : Byte := s.status

/-- What a host reads from `data` (R32, R46, R124): reading has no side effect. -/
def State.readData (s : State) : Byte := s.data

end Sys2Proof.Machine
end

