-- ==== Sys2Proof/Machine/Energize.lean ====
section
/-! DEFINITION. The de-energize controller, SET_ENERGIZED (spec/42_energize.md). -/

namespace Sys2Proof.Machine

/-- The plan of SET_ENERGIZED: one StrobeOp for each joint in index order, then the flags (R100, R101, R102). -/
def energizePlan (en : Bool) : List MicroOp :=
  [.strobeOp 0 en, .strobeOp 1 en, .strobeOp 2 en, .strobeOp 3 en, .strobeOp 4 en, .strobeOp 5 en, .setOff (!en)]

/-- SET_ENERGIZED: unconditional, it raises no diagnostic (R100, R101, R105). -/
def execSetEnergized (en : Bool) (s : State) : Host.Outcome State Fault Refusal :=
  .next (s.acceptPlan .setEnergized (.ok (energizePlan en)))

end Sys2Proof.Machine
end

