-- ==== Sys2Proof/Machine/Illegal.lean ====
section
/-! DEFINITION. An illegal header (spec/30_encoding.md R70; spec/60_exceptions.md R113). -/

namespace Sys2Proof.Machine

/-- An illegal header: IllegalCommand, whatever the header's bits and whatever `motors_off` is (R70, R113). -/
def execIllegal (_hdr : Word) (s : State) : Host.Outcome State Fault Refusal :=
  .next (s.whenIdle (·.diag .illegalCommand))

end Sys2Proof.Machine
end

