-- ==== Sys2Proof/Machine/Motion.lean ====
section
/-! DEFINITION. STEP, DRIVE and DRIVE_MULTI (spec/41_motion.md R91 to R94): their checks in the order of R115 and their plans.
`motors_off` is read once, at acceptance (R98). -/

namespace Sys2Proof.Machine

/-- `validate Step(j, d)` (R91, R115). -/
def validateStep (j d : Word) (motorsOff : Bool) : Except Diagnostic (List MicroOp) :=
  match jointOperand j with
  | none => .error .invalidJointIndex
  | some i =>
    match dirOperand d with
    | none => .error .invalidDirection
    | some dir => if motorsOff then .error .motorsDisabled else .ok [.stepOp i dir]

/-- `validate Drive(j, s, d)` (R92, R115). -/
def validateDrive (j s d : Word) (motorsOff : Bool) : Except Diagnostic (List MicroOp) :=
  match jointOperand j with
  | none => .error .invalidJointIndex
  | some i =>
    match dirOperand d with
    | none => .error .invalidDirection
    | some dir =>
      if stepCount s ≤ 0 then .error .invalidStepCount
      else if motorsOff then .error .motorsDisabled
      else .ok (List.replicate (stepCount s).toNat (.stepOp i dir))

/-- A lane of DRIVE_MULTI: a joint and its signed step count (R18, R93). -/
abbrev Lane := JointIdx × Int

/-- Round `r`: one StepOp for every lane whose magnitude is at least `r`, in list order (R94). -/
def roundOps (lanes : List Lane) (r : Nat) : List MicroOp :=
  lanes.filterMap fun l => if r ≤ l.2.natAbs then some (.stepOp l.1 (signDir l.2)) else none

/-- `n` rounds, from round `r` on (R94). -/
def roundsFrom (lanes : List Lane) : Nat → Nat → List MicroOp
  | 0, _ => []
  | n + 1, r => roundOps lanes r ++ roundsFrom lanes n (r + 1)

/-- `R = max |ss[i]|`, 0 when there is no lane (R13, R94). -/
def maxMagnitude (lanes : List Lane) : Nat := (lanes.map fun l => l.2.natAbs).foldr max 0

/-- `multi_plan`: rounds 1 to `R` (R94). -/
def multiPlan (lanes : List Lane) : List MicroOp := roundsFrom lanes (maxMagnitude lanes) 1

/-- `validate DriveMulti(js, ss)` (R93, R115). -/
def validateDriveMulti (js ss : List Word) (motorsOff : Bool) : Except Diagnostic (List MicroOp) :=
  if js.length ≠ ss.length then .error .lengthMismatch
  else
    match jointOperands js with
    | none => .error .invalidJointIndex
    | some is => if motorsOff then .error .motorsDisabled else .ok (multiPlan (is.zip (ss.map stepCount)))

/-- STEP (R91). -/
def execStep (j d : Word) (s : State) : Host.Outcome State Fault Refusal :=
  .next (s.acceptPlan .step (validateStep j d s.motorsOff))

/-- DRIVE (R92). -/
def execDrive (j n d : Word) (s : State) : Host.Outcome State Fault Refusal :=
  .next (s.acceptPlan .drive (validateDrive j n d s.motorsOff))

/-- DRIVE_MULTI (R93). -/
def execDriveMulti (js ss : List Word) (s : State) : Host.Outcome State Fault Refusal :=
  .next (s.acceptPlan .driveMulti (validateDriveMulti js ss s.motorsOff))

end Sys2Proof.Machine
end

