-- ==== Sys2Proof/Machine/Registry.lean ====
section
/-! DEFINITION. The Joint Registry and ADDRESS_OF (spec/40_registry.md). -/

namespace Sys2Proof.Machine

/-- `address_of(j)`: a pure function over the fixed six-entry table (R79, R82). -/
def registryAddress (cfg : Config) (j : Word) : Except Diagnostic Byte :=
  match jointOperand j with
  | none => .error .invalidJointIndex
  | some i => .ok cfg.params.addr[i]

/-- The answer of the registry in the response registers; the block stays Idle (R81). -/
def State.answerAddress (r : Except Diagnostic Byte) (s : State) : State :=
  match r with
  | .error e => s.diag e
  | .ok b => { s with data := b, status := statusOK }

/-- ADDRESS_OF (R81): answered whether `motors_off` is true or false, touches no timing state. -/
def execAddressOf (j : Word) (s : State) : Host.Outcome State Fault Refusal :=
  .next (s.whenIdle (·.answerAddress (registryAddress s.cfg j)))

end Sys2Proof.Machine
end

