-- ==== Sys2Proof/Machine/Dispatch.lean ====
section
/-! DEFINITION. One arm for each constructor of Instr: the command's acceptance (R90). -/

namespace Sys2Proof.Machine

def exec (i : Instr) (s : State) : Host.Outcome State Fault Refusal :=
  match i with
  | .step j d => Sys2Proof.Machine.execStep j d s
  | .drive j n d => Sys2Proof.Machine.execDrive j n d s
  | .driveMulti js ss => Sys2Proof.Machine.execDriveMulti js ss s
  | .setEnergized en => Sys2Proof.Machine.execSetEnergized en s
  | .addressOf j => Sys2Proof.Machine.execAddressOf j s
  | .illegal hdr => Sys2Proof.Machine.execIllegal hdr s

end Sys2Proof.Machine
end

