-- ==== Sys2Proof/Machine/Environment.lean ====
section
/-! DEFINITION. The transitions of the environment and the host's side of the command port (spec/70_reset_and_hazards.md R130,
R144, R146; spec/20_memory.md R44; spec/30_encoding.md R77), and the choice of the next move. -/

namespace Sys2Proof.Machine

/-- The reset transition (R130): the block's state is reinitialized, `last <- now`, the rest of a plan is discarded (R131); no
port write; the port history, the time, the configuration and what the host presents are untouched. -/
def State.resetBlock (s : State) : State :=
  { s with
    joints := Vector.replicate 6 CommutationState.initial
    motorsOff := false
    last := s.now
    seq := .idle
    status := statusOK
    data := 0x00 }

/-- Time advance, the only way `now` changes (R31, R144). A `delta` of 0 is no transition of the spec and changes nothing. -/
def State.advanceTime (delta : Nat) (s : State) : State := { s with now := s.now + delta }

/-- Hosts present words on the command port, behind the words already waiting (R57, R77, R126, R138). -/
def State.presentWords (ws : List Word) (s : State) : State := { s with commandPort := s.commandPort ++ ws }

/-- A byte-wide transport delivers one byte, least significant byte of a word first; the fourth byte makes the word (R44, R45). -/
def State.presentByte (b : Byte) (s : State) : State :=
  match s.partialWord ++ [b] with
  | [b0, b1, b2, b3] => { s with partialWord := [], commandPort := s.commandPort ++ [wordOfBytes b0 b1 b2 b3] }
  | bs => { s with partialWord := bs }

/-- The next move: the oldest one scheduled, else a free one (R119, R146). -/
def State.nextMove (s : State) : Move :=
  match s.agenda with
  | m :: _ => m
  | [] => Config.freeMove s.choices

/-- The state once its next move has been chosen: the agenda, or the counter of free choices, has moved on. -/
def State.afterChoice (s : State) : State :=
  match s.agenda with
  | _ :: ms => { s with agenda := ms }
  | [] => { s with choices := s.choices + 1 }

/-- What `State.withFetchWord` sets: the instruction's words first on the command port, the block Idle, acceptance scheduled
next. -/
def State.withCommand (ws : List Word) (s : State) : State :=
  { s with seq := .idle, commandPort := ws ++ s.commandPort, agenda := .accept :: s.agenda }

end Sys2Proof.Machine
end

