-- ==== Sys2Proof/Machine/Sequencer.lean ====
section
/-! DEFINITION. The block's own transitions: one micro-operation, or completion (spec/41_motion.md R88, R89). -/

namespace Sys2Proof.Machine

/-- The head of a plan may be performed: a pulse waits for the interval gate, SetOff does not (R84, R88). -/
def State.headEnabled (op : MicroOp) (s : State) : Bool := !op.isPulse || s.gateOpen

/-- The sequencer's turn: perform the head of the plan if it is enabled and hold if it is not (R84, R88), complete an empty
plan (R89), do nothing when Idle. -/
def State.sequencerTurn (s : State) : State :=
  match s.seq with
  | .idle => s
  | .busy _ [] => s.complete
  | .busy k (op :: rest) =>
    if s.headEnabled op then
      let performed := s.perform op
      { performed with seq := .busy k rest }
    else s

end Sys2Proof.Machine
end

