-- ==== Sys2Proof/Machine/Accept.lean ====
section
/-! DEFINITION. Acceptance of the command presented on the port, and what each move does (spec/41_motion.md R90;
spec/70_reset_and_hazards.md R146). -/

namespace Sys2Proof.Machine

/-- The block accepts a whole command when it is Idle (R90); its words leave the port (R70, R77). While Busy, and on a prefix of
a command, nothing happens and the words keep waiting (R77, R138). -/
def State.acceptTurn (s : State) : Host.Outcome State Fault Refusal :=
  match s.seq with
  | .busy _ _ => .next s
  | .idle =>
    match decodeWords s.commandPort with
    | .rejected _ => .next s
    | .command i rest => exec i { s with commandPort := rest }

/-- What a move does. A move that is not enabled changes nothing (R15). -/
def State.makeMove (m : Move) (s : State) : Host.Outcome State Fault Refusal :=
  match m with
  | .present ws => .next (s.presentWords ws)
  | .presentByte b => .next (s.presentByte b)
  | .accept => s.acceptTurn
  | .sequencer => .next s.sequencerTurn
  | .tick delta => .next (s.advanceTime delta)
  | .reset => .next s.resetBlock

end Sys2Proof.Machine
end

