-- ==== Sys2Proof/Machine/Step.lean ====
section
/-! DEFINITION. One step of the world: choose the next move, then make it (spec/70_reset_and_hazards.md R119, R146). -/

namespace Sys2Proof.Machine

/-- One transition (R52, R146). -/
def step (s : State) : Host.Outcome State Fault Refusal := s.afterChoice.makeMove s.nextMove

/-- `s` with the instruction whose bits are `w` presented on the command port of an Idle block and its acceptance scheduled as
the very next move: what a host does to run it (R77, R90). Nothing else changes. -/
def State.withFetchWord (s : State) (nbits w : Nat) : State := s.withCommand (tableWords nbits w)

end Sys2Proof.Machine
end

