-- ==== Sys2Proof/Machine/Assembler.lean ====
section
/-! DEFINITION. The assembler of spec/30_encoding.md R75 and the pseudo-instructions of R76: a line of text, as a list of
characters, to the words it stands for. -/

namespace Sys2Proof.Machine

/-- A line of assembly, its integers read (R75, R76). -/
inductive AsmLine where
  | step (j d : Word)
  | drive (j n d : Word)
  | driveMulti (js ss : List Word)
  | setEnergized (e : Bool)
  | addressOf (j : Word)
  | word (w : Word)
  | deenergize
  | energize
  | fwd (j n : Word)
  | bwd (j n : Word)
  | move (j s : Word)
deriving DecidableEq, Repr

/-- The words of a line: a pseudo-instruction is its expansion (R76), `.word` is one raw word, every other line the encoding of
its command (R75). -/
def AsmLine.words : AsmLine → List Word
  | .step j d => encode (.step j d)
  | .drive j n d => encode (.drive j n d)
  | .driveMulti js ss => encode (.driveMulti js ss)
  | .setEnergized e => encode (.setEnergized e)
  | .addressOf j => encode (.addressOf j)
  | .word w => [w]
  | .deenergize => encode (.setEnergized false)
  | .energize => encode (.setEnergized true)
  | .fwd j n => encode (.drive j n 0)
  | .bwd j n => encode (.drive j n 1)
  | .move j s => encode (.driveMulti [j] [s])

/-- A piece of a line: a comma, a bracket, or a run of other characters. -/
inductive Lexeme where
  | comma
  | openList
  | closeList
  | run (cs : List Char)
deriving DecidableEq, Repr

/-- The run read so far (reversed), if any, in front of the pieces after it. -/
def flushRun (cur : List Char) (ls : List Lexeme) : List Lexeme :=
  if cur.isEmpty then ls else .run cur.reverse :: ls

/-- The pieces of a line; white space separates, and a `;` starts a comment (DEDUCED from the programs of 95_test_vectors.md,
notes/assumptions 11). -/
def lexemes (cur : List Char) : List Char → List Lexeme
  | [] => flushRun cur []
  | c :: cs =>
    if c = ';' then flushRun cur []
    else if c = ' ' ∨ c = '\t' ∨ c = '\r' then flushRun cur (lexemes [] cs)
    else if c = ',' then flushRun cur (.comma :: lexemes [] cs)
    else if c = '[' then flushRun cur (.openList :: lexemes [] cs)
    else if c = ']' then flushRun cur (.closeList :: lexemes [] cs)
    else lexemes (c :: cur) cs

/-- The value of a digit below `base`. -/
def digitValue (base : Nat) (c : Char) : Option Nat :=
  let n := c.toNat
  let v := if 48 ≤ n ∧ n ≤ 57 then n - 48 else if 65 ≤ n ∧ n ≤ 70 then n - 55 else if 97 ≤ n ∧ n ≤ 102 then n - 87 else 99
  if v < base then some v else none

/-- The natural number a run of digits stands for, behind the digits already read. -/
def digitsFrom (base acc : Nat) : List Char → Option Nat
  | [] => some acc
  | c :: cs =>
    match digitValue base c with
    | none => none
    | some v => digitsFrom base (acc * base + v) cs

/-- A number of at least one digit. -/
def number (base : Nat) (cs : List Char) : Option Nat := if cs.isEmpty then none else digitsFrom base 0 cs

/-- An integer: decimal, optionally negative, or `0x` hexadecimal (R75). -/
def integer : List Char → Option Int
  | '0' :: 'x' :: cs => (number 16 cs).map Int.ofNat
  | '-' :: cs => (number 10 cs).map fun n => -(n : Int)
  | cs => (number 10 cs).map Int.ofNat

/-- An argument of a line: an integer or a bracketed list of integers (R75). -/
inductive AsmArg where
  | int (n : Int)
  | list (ns : List Int)
deriving DecidableEq, Repr

/-- Where the reader of arguments stands. -/
inductive ArgState where
  | wantArg
  | afterArg
  | listStart
  | listWant (ns : List Int)
  | listAfter (ns : List Int)
deriving DecidableEq, Repr

/-- Arguments separated by commas, lists in square brackets (R75). -/
def asmArgs : ArgState → List Lexeme → Option (List AsmArg)
  | .afterArg, [] => some []
  | .afterArg, .comma :: ls => asmArgs .wantArg ls
  | .wantArg, .openList :: ls => asmArgs .listStart ls
  | .wantArg, .run cs :: ls =>
    match integer cs, asmArgs .afterArg ls with
    | some n, some as => some (.int n :: as)
    | _, _ => none
  | .listStart, .closeList :: ls => (asmArgs .afterArg ls).map (.list [] :: ·)
  | .listStart, .run cs :: ls =>
    match integer cs with
    | some n => asmArgs (.listAfter [n]) ls
    | none => none
  | .listWant ns, .run cs :: ls =>
    match integer cs with
    | some n => asmArgs (.listAfter (ns ++ [n])) ls
    | none => none
  | .listAfter ns, .comma :: ls => asmArgs (.listWant ns) ls
  | .listAfter ns, .closeList :: ls => (asmArgs .afterArg ls).map (.list ns :: ·)
  | _, _ => none

/-- An integer as a u32 word; one that does not fit is refused (DESIGN CHOICE, notes/assumptions 11). -/
def u32Word (n : Int) : Option Word := if 0 ≤ n ∧ n < 2 ^ 32 then some (BitVec.ofInt 32 n) else none

/-- An integer as an s32 word; one that does not fit is refused (DESIGN CHOICE, notes/assumptions 11). -/
def s32Word (n : Int) : Option Word := if -2 ^ 31 ≤ n ∧ n < 2 ^ 31 then some (BitVec.ofInt 32 n) else none

/-- Every integer of a list as a word. -/
def listWords (f : Int → Option Word) : List Int → Option (List Word)
  | [] => some []
  | n :: ns =>
    match f n, listWords f ns with
    | some w, some ws => some (w :: ws)
    | _, _ => none

/-- A list that an 8-bit count can name (R64). -/
def listOperand (f : Int → Option Word) (ns : List Int) : Option (List Word) :=
  match listWords f ns with
  | some ws => if countFits ws then some ws else none
  | none => none

/-- A mnemonic and its arguments as a line (R75, R76). -/
def asmLine (m : List Char) (as : List AsmArg) : Option AsmLine :=
  if m = ['S', 'T', 'E', 'P'] then
    match as with
    | [.int j, .int d] => do return .step (← u32Word j) (← u32Word d)
    | _ => none
  else if m = ['D', 'R', 'I', 'V', 'E'] then
    match as with
    | [.int j, .int n, .int d] => do return .drive (← u32Word j) (← s32Word n) (← u32Word d)
    | _ => none
  else if m = ['D', 'R', 'I', 'V', 'E', '_', 'M', 'U', 'L', 'T', 'I'] then
    match as with
    | [.list js, .list ss] => do return .driveMulti (← listOperand u32Word js) (← listOperand s32Word ss)
    | _ => none
  else if m = ['S', 'E', 'T', '_', 'E', 'N', 'E', 'R', 'G', 'I', 'Z', 'E', 'D'] then
    match as with
    | [.int e] => if e = 0 then some (.setEnergized false) else if e = 1 then some (.setEnergized true) else none
    | _ => none
  else if m = ['A', 'D', 'D', 'R', 'E', 'S', 'S', '_', 'O', 'F'] then
    match as with
    | [.int j] => do return .addressOf (← u32Word j)
    | _ => none
  else if m = ['.', 'w', 'o', 'r', 'd'] then
    match as with
    | [.int w] => do return .word (← u32Word w)
    | _ => none
  else if m = ['D', 'E', 'E', 'N', 'E', 'R', 'G', 'I', 'Z', 'E'] then
    if as.isEmpty then some .deenergize else none
  else if m = ['E', 'N', 'E', 'R', 'G', 'I', 'Z', 'E'] then
    if as.isEmpty then some .energize else none
  else if m = ['F', 'W', 'D'] then
    match as with
    | [.int j, .int n] => do return .fwd (← u32Word j) (← s32Word n)
    | _ => none
  else if m = ['B', 'W', 'D'] then
    match as with
    | [.int j, .int n] => do return .bwd (← u32Word j) (← s32Word n)
    | _ => none
  else if m = ['M', 'O', 'V', 'E'] then
    match as with
    | [.int j, .int s] => do return .move (← u32Word j) (← s32Word s)
    | _ => none
  else none

/-- The words of one line of text; an empty line or a comment has none (R75). -/
def assembleLine (text : List Char) : Option (List Word) :=
  match lexemes [] text with
  | [] => some []
  | [.run m] => (asmLine m []).map AsmLine.words
  | .run m :: ls =>
    match asmArgs .wantArg ls with
    | some as => (asmLine m as).map AsmLine.words
    | none => none
  | _ => none

/-- The words of a program: one command per line (R75). -/
def assemble : List (List Char) → Option (List Word)
  | [] => some []
  | l :: ls =>
    match assembleLine l, assemble ls with
    | some ws, some rest => some (ws ++ rest)
    | _, _ => none

end Sys2Proof.Machine
end

