-- ==== Sys2Proof/Safety.lean ====
section
/-! DEFINITION. The terms claims are made in: the pulses of a port history, the invariants of spec/10_state.md R40, runs, the
launch premises of spec/70_reset_and_hazards.md R134, the end of a run (spec/60_exceptions.md R129), and schedules (R95, R146). -/

namespace Sys2Proof.Machine

/-! ### Pulses in a port history -/

/-- A pulse as the port saw it: its time and its strobe-low byte (R18, R83). -/
structure Pulse where
  time : Nat
  byte : Byte
deriving DecidableEq, Repr

/-- The two writes of a pulse: strobe high, then strobe low, with one time stamp (R49, R83). -/
def Pulse.writes (p : Pulse) : List (Nat × Byte) := [(p.time, p.byte ||| enableBit), (p.time, p.byte)]

/-- The writes of several pulses, one pulse after the other. -/
def pulseWrites (ps : List Pulse) : List (Nat × Byte) := ps.flatMap Pulse.writes

/-- The pulses of a port history, if it is made of pulses: writes in pairs, with one time stamp, bit 0 set on the first and
clear on the second, and bits 7 to 1 equal (R40 I6, R83). -/
def pulsesOf : List (Nat × Byte) → Option (List Pulse)
  | [] => some []
  | [_] => none
  | (t1, b1) :: (t2, b2) :: rest =>
    if t1 = t2 ∧ b1 = b2 ||| enableBit ∧ b2.getLsbD 0 = false then (pulsesOf rest).map (⟨t2, b2⟩ :: ·) else none

/-- Consecutive pulses at least `tMin` ticks apart (R40 I6, R137). -/
def spaced (tMin : Nat) : List Pulse → Bool
  | p :: q :: ps => decide (p.time + tMin ≤ q.time) && spaced tMin (q :: ps)
  | _ => true

/-- The last pulse of a list is not later than `t`. -/
def endsBy (t : Nat) (ps : List Pulse) : Bool := ps.getLast?.all fun p => decide (p.time ≤ t)

/-- The first pulse of a list is not earlier than `t`. -/
def startsFrom (t : Nat) (ps : List Pulse) : Bool := ps.head?.all fun p => decide (t ≤ p.time)

/-! ### The invariants -/

/-- I6 of R40 over the whole port history: it is made of pulses, consecutive pulses are `T_MIN` apart. -/
def historyOk (s : State) : Bool :=
  match pulsesOf s.portLog with
  | none => false
  | some ps => spaced s.tMin ps

/-- No pulse of the history is later than `last`: what makes the gate's check enough (R84, R99(d)). -/
def lastCoversHistory (s : State) : Bool :=
  match pulsesOf s.portLog with
  | none => false
  | some ps => endsBy s.last ps

/-- A StepOp (R29). -/
def MicroOp.isStep : MicroOp → Bool
  | .stepOp _ _ => true
  | .strobeOp _ _ => false
  | .setOff _ => false

/-- I3 of R40. -/
def idleMirrors (s : State) : Prop := s.seq = .idle → ∀ j : JointIdx, s.energized j = !s.motorsOff

/-- I4 of R40. -/
def motionNotOff (s : State) : Prop :=
  match s.seq with
  | .idle => True
  | .busy _ plan => plan.any MicroOp.isStep = true → s.motorsOff = false

/-- I5 of R40. -/
def busyInStatus (s : State) : Prop := s.status = statusBusy ↔ s.seq.isBusy = true

/-- The invariants I1 to I6 of R40; I1 holds by the type of `phase_index`. -/
def SpecInvariants (s : State) : Prop :=
  (∀ j : JointIdx, (s.phase j).val ≤ 3) ∧ s.last ≤ s.now ∧ idleMirrors s ∧ motionNotOff s ∧ busyInStatus s ∧
    historyOk s = true

/-- The values `status` ever holds (R30). -/
def legalStatus : List Byte := [0x00, 0x01, 0x02, 0x03, 0x04, 0x05, 0x06, 0x80]

/-- `data` holds 0x00 but after a successful ADDRESS_OF (R32). -/
def dataOk (s : State) : Prop :=
  s.data = 0x00 ∨ (s.seq = .idle ∧ s.status = statusOK ∧ ∃ j : JointIdx, s.data = s.addr j)

/-- A position that a counter of this width can hold (R23). -/
def positionFits : PosWidth → Int → Prop
  | .unbounded, _ => True
  | .bits n, x => -2 ^ (n - 1) ≤ x ∧ x < 2 ^ (n - 1)

/-- What is left of a plan is left of a plan that an acceptance sets: StepOps only, with `motors_off` false, or the end of a
SET_ENERGIZED plan, after whose last pulse of a de-energizing one the bus holds the address bits of joint 5 (R26, R94, R98,
R102). -/
def planShape (s : State) : Prop :=
  match s.seq with
  | .idle => s.motorsOff = true → s.bus = some (s.addr 5)
  | .busy .setEnergized plan =>
    (∃ en, plan <:+ energizePlan en) ∧ (plan = [.setOff true] → s.bus = some (s.addr 5)) ∧
      (plan = [] → s.motorsOff = true → s.bus = some (s.addr 5))
  | .busy _ plan => plan.all MicroOp.isStep = true ∧ s.motorsOff = false

/-- The invariant every step keeps: R40's invariants, and what they rest on (R23, R26, R30, R32, R33, R45). -/
def Inv (s : State) : Prop :=
  SpecInvariants s ∧ lastCoversHistory s = true ∧ (∀ j : JointIdx, s.energized j = !s.motorsOff) ∧ planShape s ∧
    s.status ∈ legalStatus ∧ dataOk s ∧ (∀ j : JointIdx, positionFits s.posWidth (s.pos j)) ∧
    s.bus = s.portLog.getLast?.map Prod.snd ∧ s.partialWord.length ≤ 3

/-- The phase of every joint is its position modulo 4: both count the same steps (R22, R23, R86). -/
def PhaseTracksPosition (s : State) : Prop := ∀ j : JointIdx, ((s.phase j).val : Int) = s.pos j % 4

/-! ### Runs -/

/-- The block as it is when it has been reset at `t0` and nothing has happened since, with any configuration, anything presented
on its command port and any schedule (R39, R134 `FRESH`, read as notes/assumptions 18 says); no byte has been written to the
port. -/
def State.boot (cfg : Config) (t0 : Nat) (port : List Word) (agenda : List Move) (choices : Nat) : State :=
  { State.reset with
    cfg := cfg
    last := t0
    now := t0
    commandPort := port
    agenda := agenda
    choices := choices }

/-- `FRESH` (R134): the block was reset at time `t0` and has taken no transition since. The spec leaves open whether time may have
advanced since the reset: R52 does not list the tick among the block's transitions, R144 calls it the environment's. DESIGN
CHOICE (notes/assumptions 18): it has not, `now` is still `t0`. -/
def fresh (t0 : Nat) (s : State) : Prop :=
  (∀ j : JointIdx, s.joints[j] = CommutationState.initial) ∧ s.motorsOff = false ∧ s.last = t0 ∧ s.now = t0 ∧
    s.seq = .idle ∧ s.status = statusOK ∧ s.data = 0x00

/-- `WHOLE_COMMANDS` (R134): what stands on the command port is whole commands, and none of them is an illegal header (R140). -/
def WholeCommands (port : List Word) : Prop :=
  ∃ is : List Instr, (∀ i ∈ is, i.wf = true ∧ ∀ hdr, i ≠ .illegal hdr) ∧ port = is.flatMap encode

/-- Some number of steps leads from `s` to `t`, in some order of moves (R146). -/
inductive Steps : State → State → Prop where
  | refl (s : State) : Steps s s
  | tail {s t u : State} (before : Steps s t) (last : step t = .next u) : Steps s u

/-- The states that a run from a fresh block reaches (R40). -/
def Reachable (s : State) : Prop :=
  ∃ cfg t0 port agenda choices, Steps (State.boot cfg t0 port agenda choices) s

/-- Steps of a block that was Busy before each of them, none of them a reset: the life of one command (R97). -/
inductive BusySteps : State → State → Prop where
  | refl (s : State) : BusySteps s s
  | tail {s t u : State} (before : BusySteps s t) (busy : t.seq.isBusy = true) (noReset : t.nextMove ≠ .reset)
      (last : step t = .next u) : BusySteps s u

/-- A whole command stands on the port. A part of one is no command (R45, R77). -/
def State.commandWaits (s : State) : Bool :=
  match decodeWords s.commandPort with
  | .command _ _ => true
  | .rejected _ => false

/-- The end of a run: Idle, and no host presents a further command (R129). A part of a command that waits is no command, so it
does not keep a run from its end (R45, R77). A busy block is never final. -/
def final (s : State) : Bool := !s.seq.isBusy && !s.commandWaits

/-- The observable result of a run (R129). -/
structure Observation where
  phase : List PhaseIdx
  pos : List Int
  energized : List Bool
  motorsOff : Bool
  last : Nat
  status : Byte
  data : Byte
  portLog : List (Nat × Byte)
deriving DecidableEq, Repr

/-- What is observed of a state (R129). -/
def observe (s : State) : Observation where
  phase := (List.finRange 6).map s.phase
  pos := (List.finRange 6).map s.pos
  energized := (List.finRange 6).map s.energized
  motorsOff := s.motorsOff
  last := s.last
  status := s.readStatus
  data := s.readData
  portLog := s.portLog

/-! ### Plans and schedules -/

/-- The micro-operations of a plan one after the other, with no time between them (R88 without R84). -/
def performAll (plan : List MicroOp) (s : State) : State := plan.foldl (fun t op => t.perform op) s

/-- The net number of steps a plan still has to do on joint `j` (R99(c), (e)). -/
def netSteps (j : JointIdx) : List MicroOp → Int
  | [] => 0
  | .stepOp i d :: ops => (if i = j then d.delta else 0) + netSteps j ops
  | .strobeOp _ _ :: ops => netSteps j ops
  | .setOff _ :: ops => netSteps j ops

/-- The number of pulses of a plan, `K` of R95. -/
def pulseCount (plan : List MicroOp) : Nat := plan.countP MicroOp.isPulse

/-- The eager schedule of a plan (R95): before each pulse time is advanced exactly to the opening of the gate, `wait` ticks
before the first pulse and `T_MIN` before every later one; the last turn is the completion. -/
def eagerMoves (tMin : Nat) : Nat → List MicroOp → List Move
  | _, [] => [.sequencer]
  | wait, op :: ops =>
    if op.isPulse then .tick wait :: .sequencer :: eagerMoves tMin tMin ops else .sequencer :: eagerMoves tMin wait ops

/-- A move that is a transition of the spec in `s` (R15, R90, R144): the others change nothing. -/
def State.enabled (s : State) : Move → Bool
  | .present _ => true
  | .presentByte _ => true
  | .accept => !s.seq.isBusy && s.commandWaits
  | .sequencer =>
    match s.seq with
    | .idle => false
    | .busy _ [] => true
    | .busy _ (op :: _) => s.headEnabled op
  | .tick delta => decide (1 ≤ delta)
  | .reset => true

/-- The turns of the sequencer in a schedule that come after time has advanced by at least `tMin`, in whatever ticks, since the
last such turn (`waited` ticks already at the start). -/
def timedTurns (tMin : Nat) : Nat → List Move → Nat
  | _, [] => 0
  | waited, .tick delta :: ms => timedTurns tMin (waited + delta) ms
  | waited, .sequencer :: ms =>
    if tMin ≤ waited then timedTurns tMin 0 ms + 1 else timedTurns tMin waited ms
  | waited, .present _ :: ms => timedTurns tMin waited ms
  | waited, .presentByte _ :: ms => timedTurns tMin waited ms
  | waited, .accept :: ms => timedTurns tMin waited ms
  | waited, .reset :: ms => timedTurns tMin waited ms

/-- The state after the first `n` moves of an endless schedule. -/
def afterMoves (schedule : Nat → Move) (s : State) : Nat → State
  | 0 => s
  | n + 1 =>
    match (afterMoves schedule s n).makeMove (schedule n) with
    | .next t => t
    | .fault _ => afterMoves schedule s n
    | .refused _ => afterMoves schedule s n

/-- The weak fairness of R146, of an endless schedule from `s`: time advances without bound, and the block's own transition, its
sequencer's step or completion, is eventually taken where it stays enabled. It is a premise of statements and no part of the step
(notes/assumptions 14). -/
def weaklyFair (schedule : Nat → Move) (s : State) : Prop :=
  (∀ time, ∃ n, time ≤ (afterMoves schedule s n).now) ∧
  ∀ n, (∀ k, n ≤ k → (afterMoves schedule s k).enabled .sequencer = true) → ∃ k, n ≤ k ∧ schedule k = .sequencer

/-- The first time the gate is open: `max(now, last + T_MIN)` (R95). -/
def State.gateTime (s : State) : Nat := max s.now (s.last + s.tMin)

/-- Pulses at `t`, `t + T_MIN`, `t + 2 T_MIN`, ... with the given bytes (R95). -/
def pulseTrain (tMin t : Nat) : List Byte → List Pulse
  | [] => []
  | b :: bs => ⟨t, b⟩ :: pulseTrain tMin (t + tMin) bs

/-- The bytes a plan pulses, in order, from the joints of `s` (R85, R86, R87). -/
def planBytes : List MicroOp → State → List Byte
  | [], _ => []
  | .stepOp j d :: ops, s => (s.advance j d).stepByte j :: planBytes ops (s.advance j d)
  | .strobeOp j on :: ops, s => (if on then s.stepByte j else s.addr j) :: planBytes ops s
  | .setOff b :: ops, s => planBytes ops (s.setOff b)

/-- The code of a direction on the command port (R66). -/
def dirCode : Dir → Nat
  | .forward => 0
  | .backward => 1

/-- The sum of the signed counts of the lanes of joint `j` (R99(e)). -/
def laneNet (j : JointIdx) (lanes : List Lane) : Int := (lanes.map fun l => if l.1 = j then l.2 else 0).sum

/-- The sum of the magnitudes of the lanes, `K` of R95 for DRIVE_MULTI. -/
def laneTotal (lanes : List Lane) : Nat := (lanes.map fun l => l.2.natAbs).sum

/-! ### What a host can see -/

/-- Two states alike but for phases, positions and the bytes on the output port (R22, R23, R37). -/
def SameToHost (s t : State) : Prop :=
  s.cfg = t.cfg ∧ (∀ j : JointIdx, s.energized j = t.energized j) ∧ s.motorsOff = t.motorsOff ∧ s.last = t.last ∧
    s.seq = t.seq ∧ s.status = t.status ∧ s.data = t.data ∧ s.portLog.map Prod.fst = t.portLog.map Prod.fst ∧
    s.now = t.now ∧ s.commandPort = t.commandPort ∧ s.partialWord = t.partialWord ∧ s.agenda = t.agenda ∧
    s.choices = t.choices

end Sys2Proof.Machine
end

