-- ==== Sys2Proof/Certificates/Slice0/Obligations.lean ====
section
/-! DEFINITION. The statements for the provers: what the numbered rules of spec/ say the block does. A statement about every step
speaks of `s.nextMove`, the move the step makes, and of `s.afterChoice`, the state once that move has been chosen (its agenda or
its counter of free choices moved on, nothing else): so it covers every order of the transitions (R146). -/

open Sys2Proof Sys2Proof.Machine

/-! ### Encoding -/

/-- R62 to R67, R70, R74: the decoder reads every well-formed command back from its words, whatever follows them. -/
def Obligations.DecodeEncodeRoundTrip : Prop :=
  ∀ (i : Instr) (rest : List Word), i.wf = true → decodeWords (encode i ++ rest) = .command i rest

/-- R73, R74: a stream that decodes is the encoding of the command it decodes to, so no bit of it was dropped. -/
def Obligations.DecodedWordsReencode : Prop :=
  ∀ (ws rest : List Word) (i : Instr), decodeWords ws = .command i rest → i.wf = true ∧ ws = encode i ++ rest

/-- R72: the length computed from a header is the number of words of the command, and lies between 1 and 511. -/
def Obligations.CommandLengthCountsWords : Prop :=
  (∀ i : Instr, i.wf = true → commandLength (headerWord i) = (encode i).length) ∧
  (∀ hdr : Word, 1 ≤ commandLength hdr ∧ commandLength hdr ≤ 511)

/-- R70: a header that matches no row is a command of one word, the words after it are the next command's, and its acceptance
reports IllegalCommand and changes nothing else. -/
def Obligations.IllegalHeaderIsOneWordCommand : Prop :=
  ∀ (hdr : Word) (rest : List Word) (s : State), legalHeader hdr = false →
    commandLength hdr = 1 ∧ decodeWords (hdr :: rest) = .command (.illegal hdr) rest ∧
    (s.seq = .idle → exec (.illegal hdr) s = .next { s with status := 0x06, data := 0x00 })

/-- R71: a reserved bit that is set, or an opcode of no row, makes the header illegal and of length 1. -/
def Obligations.ReservedBitsMakeHeaderIllegal : Prop :=
  ∀ (hdr : Word) (rest : List Word),
    ((hdr.extractLsb' 24 8 = 0x01 ∨ hdr.extractLsb' 24 8 = 0x02 ∨ hdr.extractLsb' 24 8 = 0x05) ∧ hdr.extractLsb' 0 24 ≠ 0) ∨
    (hdr.extractLsb' 24 8 = 0x03 ∧ hdr.extractLsb' 16 8 ≠ 0) ∨
    (hdr.extractLsb' 24 8 = 0x04 ∧ hdr.extractLsb' 1 23 ≠ 0) ∨
    hdr.extractLsb' 24 8 = 0x00 ∨ 0x06 ≤ (hdr.extractLsb' 24 8).toNat →
    commandLength hdr = 1 ∧ decodeWords (hdr :: rest) = .command (.illegal hdr) rest

/-- R78: every example of the table assembles to its words, and the words of every example decode to its command. -/
def Obligations.EncodingExamples : Prop :=
  assembleLine "STEP 0, 0".toList = some [0x01000000, 0x00000000, 0x00000000] ∧
  assembleLine "STEP 6, 0".toList = some [0x01000000, 0x00000006, 0x00000000] ∧
  assembleLine "DRIVE 2, 3, 1".toList = some [0x02000000, 0x00000002, 0x00000003, 0x00000001] ∧
  assembleLine "DRIVE 0, -5, 0".toList = some [0x02000000, 0x00000000, 0xFFFFFFFB, 0x00000000] ∧
  assembleLine "DRIVE_MULTI [0, 1], [2, -3]".toList =
    some [0x03000202, 0x00000000, 0x00000001, 0x00000002, 0xFFFFFFFD] ∧
  assembleLine "DRIVE_MULTI [0, 1], [2]".toList = some [0x03000201, 0x00000000, 0x00000001, 0x00000002] ∧
  assembleLine "DRIVE_MULTI [], []".toList = some [0x03000000] ∧
  assembleLine "SET_ENERGIZED 0".toList = some [0x04000000] ∧
  assembleLine "SET_ENERGIZED 1".toList = some [0x04000001] ∧
  assembleLine "ADDRESS_OF 3".toList = some [0x05000000, 0x00000003] ∧
  assembleLine ".word 0x04000002".toList = some [0x04000002] ∧
  decodeWords [0x01000000, 0x00000000, 0x00000000] = .command (.step 0 0) [] ∧
  decodeWords [0x01000000, 0x00000006, 0x00000000] = .command (.step 6 0) [] ∧
  decodeWords [0x02000000, 0x00000002, 0x00000003, 0x00000001] = .command (.drive 2 3 1) [] ∧
  decodeWords [0x02000000, 0x00000000, 0xFFFFFFFB, 0x00000000] = .command (.drive 0 0xFFFFFFFB 0) [] ∧
  decodeWords [0x03000202, 0x00000000, 0x00000001, 0x00000002, 0xFFFFFFFD] = .command (.driveMulti [0, 1] [2, 0xFFFFFFFD]) [] ∧
  decodeWords [0x03000201, 0x00000000, 0x00000001, 0x00000002] = .command (.driveMulti [0, 1] [2]) [] ∧
  decodeWords [0x03000000] = .command (.driveMulti [] []) [] ∧
  decodeWords [0x04000000] = .command (.setEnergized false) [] ∧
  decodeWords [0x04000001] = .command (.setEnergized true) [] ∧
  decodeWords [0x05000000, 0x00000003] = .command (.addressOf 3) [] ∧
  decodeWords [0x04000002] = .command (.illegal 0x04000002) []

/-- R76: each pseudo-instruction stands for the words of its expansion. -/
def Obligations.PseudoInstructionsExpand : Prop :=
  ∀ j n : Word,
    AsmLine.words .deenergize = [0x04000000] ∧ AsmLine.words .energize = [0x04000001] ∧
    AsmLine.words (.fwd j n) = [0x02000000, j, n, 0x00000000] ∧
    AsmLine.words (.bwd j n) = [0x02000000, j, n, 0x00000001] ∧
    AsmLine.words (.move j n) = [0x03000101, j, n]

/-- R44, R45: the first byte of a word is its least significant one, in sending and in receiving; words sent so arrive as they
were; a word of which fewer than four bytes have come is not on the command port. -/
def Obligations.LittleEndianTransport : Prop :=
  (∀ w : Word, bytesOfWord w = [w.extractLsb' 0 8, w.extractLsb' 8 8, w.extractLsb' 16 8, w.extractLsb' 24 8]) ∧
  (∀ (s : State) (b0 b1 b2 b3 : Byte), s.partialWord = [] →
    ∃ w : Word, [b0, b1, b2, b3].foldl (fun t b => t.presentByte b) s = s.presentWords [w] ∧
      w.toNat = b0.toNat + 256 * b1.toNat + 65536 * b2.toNat + 16777216 * b3.toNat) ∧
  (∀ ws : List Word, wordsOfBytes (ws.flatMap bytesOfWord) = (ws, [])) ∧
  (∀ (s : State) (w : Word), s.partialWord = [] →
    (bytesOfWord w).foldl (fun t b => t.presentByte b) s = s.presentWords [w] ∧
    ∀ n, n < 4 → (((bytesOfWord w).take n).foldl (fun t b => t.presentByte b) s).commandPort = s.commandPort)

/-- R77: a proper prefix of a command is not a command, and acceptance does nothing with it (that the model makes such a move at
all, and that it changes nothing, is notes/assumptions 3). -/
def Obligations.PartialCommandWaits : Prop :=
  (∀ (i : Instr) (n : Nat), i.wf = true → n < (encode i).length →
    ∃ why, decodeWords ((encode i).take n) = .rejected why) ∧
  (∀ (s : State) (why : DecodeStop), s.nextMove = .accept → decodeWords s.commandPort = .rejected why →
    step s = .next s.afterChoice)

/-- R9, R10, R11: a configuration is built, with the parameters asked for, when its address entries have bit 0 clear and are
pairwise distinct, its phase entries have bit 0 clear, and R9's constraints on `POS_WIDTH` and `TICK` hold; when one of these fails
the build is refused. That `TICK` is a natural number is the model's choice (notes/assumptions 12). -/
def Obligations.ConfigurationsAreChecked : Prop :=
  ∀ p : Params,
    ((∃ c : Config, Config.build p = .ok c ∧ c.params = p) ↔
      (∀ j : JointIdx, p.addr[j] &&& 0x01 = 0) ∧ (∀ i j : JointIdx, i ≠ j → p.addr[i] ≠ p.addr[j]) ∧
      (∀ q : PhaseIdx, p.phase[q] &&& 0x01 = 0) ∧ (∀ n, p.posWidth = .bits n → 2 ≤ n) ∧ 0 < p.tick) ∧
    ((∃ why : ConfigProblem, Config.build p = .error why) ↔
      (∃ j : JointIdx, p.addr[j] &&& 0x01 ≠ 0) ∨ (∃ i j : JointIdx, i ≠ j ∧ p.addr[i] = p.addr[j]) ∨
      (∃ q : PhaseIdx, p.phase[q] &&& 0x01 ≠ 0) ∨ (∃ n, p.posWidth = .bits n ∧ n < 2) ∨ p.tick = 0)

/-! ### Acceptance of each command -/

/-- R90, R91: a valid STEP, accepted on an Idle block whose motors are on, plans one StepOp. -/
def Obligations.StepPlansOneStepOp : Prop :=
  ∀ (s : State) (j d : Word) (i : JointIdx) (dir : Dir),
    s.seq = .idle → j.toNat = i.val → d.toNat = dirCode dir → s.motorsOff = false →
    exec (.step j d) s =
      .next { s with seq := .busy .step [.stepOp i dir], status := 0x80, data := 0x00 }

/-- R90, R92: a valid DRIVE plans as many StepOps as its count, all on its joint and in its direction. -/
def Obligations.DrivePlansItsSteps : Prop :=
  ∀ (s : State) (j n d : Word) (i : JointIdx) (dir : Dir),
    s.seq = .idle → j.toNat = i.val → d.toNat = dirCode dir → 0 < n.toInt → s.motorsOff = false →
    exec (.drive j n d) s =
      .next { s with seq := .busy .drive (List.replicate n.toInt.toNat (.stepOp i dir)), status := 0x80, data := 0x00 }

/-- R90, R93: a valid DRIVE_MULTI with some count that is not zero plans its rounds. -/
def Obligations.DriveMultiPlansItsRounds : Prop :=
  ∀ (s : State) (js ss : List Word) (is : List JointIdx),
    s.seq = .idle → js.map BitVec.toNat = is.map Fin.val → js.length = ss.length → (∃ w ∈ ss, w.toInt ≠ 0) →
    s.motorsOff = false →
    exec (.driveMulti js ss) s =
      .next { s with
        seq := .busy .driveMulti (multiPlan (is.zip (ss.map BitVec.toInt))), status := 0x80, data := 0x00 }

/-- R90, R93: a valid DRIVE_MULTI with nothing to do, empty lists included, completes at once with OK. -/
def Obligations.DriveMultiOfNothingCompletes : Prop :=
  ∀ (s : State) (js ss : List Word),
    s.seq = .idle → (∀ j ∈ js, j.toNat ≤ 5) → js.length = ss.length → (∀ w ∈ ss, w.toInt = 0) → s.motorsOff = false →
    exec (.driveMulti js ss) s = .next { s with status := 0x00, data := 0x00 }

/-- R94: the plan of DRIVE_MULTI, round by round; `R` is the largest magnitude. -/
def Obligations.MultiPlanIsRoundByRound : Prop :=
  ∀ lanes : List Lane,
    (∀ l ∈ lanes, l.2.natAbs ≤ maxMagnitude lanes) ∧
    (lanes ≠ [] → ∃ l ∈ lanes, l.2.natAbs = maxMagnitude lanes) ∧ (lanes = [] → maxMagnitude lanes = 0) ∧
    multiPlan lanes =
      (List.range (maxMagnitude lanes)).flatMap fun r =>
        lanes.flatMap fun l =>
          if l.2.natAbs ≥ r + 1 then [MicroOp.stepOp l.1 (if l.2 > 0 then Dir.forward else Dir.backward)] else []

/-- R95, R99(e): a DRIVE_MULTI plan has as many pulses as the magnitudes sum to, and its net steps on a joint are the sum of the
counts of that joint's lanes. -/
def Obligations.MultiPlanCounts : Prop :=
  ∀ lanes : List Lane,
    pulseCount (multiPlan lanes) = laneTotal lanes ∧
    ∀ j : JointIdx, netSteps j (multiPlan lanes) = laneNet j lanes

/-- R100, R101, R102, R105: SET_ENERGIZED is accepted whatever `motors_off` is, and plans six pulses in joint order and then the
flags. -/
def Obligations.SetEnergizedPlansSixPulses : Prop :=
  ∀ (s : State) (en : Bool), s.seq = .idle →
    exec (.setEnergized en) s =
      .next { s with
        seq := .busy .setEnergized
          [.strobeOp 0 en, .strobeOp 1 en, .strobeOp 2 en, .strobeOp 3 en, .strobeOp 4 en, .strobeOp 5 en, .setOff (!en)]
        status := 0x80
        data := 0x00 }

/-- R81: ADDRESS_OF answers a joint's address bits in `data` and stays Idle, whether `motors_off` is true or false; an index
above 5 is InvalidJointIndex. -/
def Obligations.AddressOfAnswers : Prop :=
  ∀ (s : State) (j : Word), s.seq = .idle →
    (∀ i : JointIdx, j.toNat = i.val →
      exec (.addressOf j) s = .next { s with data := s.cfg.params.addr[i], status := 0x00 }) ∧
    (5 < j.toNat → exec (.addressOf j) s = .next { s with status := 0x01, data := 0x00 })

/-- R115: of the diagnostics that apply to a command, the first in the table's order is reported, and it changes `status` and
`data` alone (R114); a command to which none applies reports none: it is Busy or has completed with OK. -/
def Obligations.FirstDiagnosticIsReported : Prop :=
  ∀ (s : State) (j n d hdr : Word) (js ss : List Word) (en : Bool), s.seq = .idle →
    (5 < j.toNat → exec (.step j d) s = .next { s with status := 0x01, data := 0x00 }) ∧
    (j.toNat ≤ 5 → 1 < d.toNat → exec (.step j d) s = .next { s with status := 0x02, data := 0x00 }) ∧
    (j.toNat ≤ 5 → d.toNat ≤ 1 → s.motorsOff = true → exec (.step j d) s = .next { s with status := 0x05, data := 0x00 }) ∧
    (j.toNat ≤ 5 → d.toNat ≤ 1 → s.motorsOff = false → ∃ t, exec (.step j d) s = .next t ∧ t.status = 0x80) ∧
    (5 < j.toNat → exec (.drive j n d) s = .next { s with status := 0x01, data := 0x00 }) ∧
    (j.toNat ≤ 5 → 1 < d.toNat → exec (.drive j n d) s = .next { s with status := 0x02, data := 0x00 }) ∧
    (j.toNat ≤ 5 → d.toNat ≤ 1 → n.toInt ≤ 0 → exec (.drive j n d) s = .next { s with status := 0x03, data := 0x00 }) ∧
    (j.toNat ≤ 5 → d.toNat ≤ 1 → 0 < n.toInt → s.motorsOff = true →
      exec (.drive j n d) s = .next { s with status := 0x05, data := 0x00 }) ∧
    (j.toNat ≤ 5 → d.toNat ≤ 1 → 0 < n.toInt → s.motorsOff = false →
      ∃ t, exec (.drive j n d) s = .next t ∧ t.status = 0x80) ∧
    (js.length ≠ ss.length → exec (.driveMulti js ss) s = .next { s with status := 0x04, data := 0x00 }) ∧
    (js.length = ss.length → (∃ w ∈ js, 5 < w.toNat) →
      exec (.driveMulti js ss) s = .next { s with status := 0x01, data := 0x00 }) ∧
    (js.length = ss.length → (∀ w ∈ js, w.toNat ≤ 5) → s.motorsOff = true →
      exec (.driveMulti js ss) s = .next { s with status := 0x05, data := 0x00 }) ∧
    (js.length = ss.length → (∀ w ∈ js, w.toNat ≤ 5) → s.motorsOff = false →
      ∃ t, exec (.driveMulti js ss) s = .next t ∧ (t.status = 0x80 ∨ t.status = 0x00)) ∧
    (5 < j.toNat → exec (.addressOf j) s = .next { s with status := 0x01, data := 0x00 }) ∧
    (j.toNat ≤ 5 → ∃ t, exec (.addressOf j) s = .next t ∧ t.status = 0x00) ∧
    (∃ t, exec (.setEnergized en) s = .next t ∧ t.status = 0x80) ∧
    exec (.illegal hdr) s = .next { s with status := 0x06, data := 0x00 }

/-- R90, R114, R116: acceptance, of any command, moves no joint, writes no flag and no byte, and takes no time; a command that
ends in a diagnostic changes `status` and `data` alone. -/
def Obligations.AcceptanceMovesNothing : Prop :=
  ∀ (i : Instr) (s : State), ∃ t, exec i s = .next t ∧
    t.joints = s.joints ∧ t.motorsOff = s.motorsOff ∧ t.last = s.last ∧ t.bus = s.bus ∧ t.portLog = s.portLog ∧
    t.now = s.now ∧ t.cfg = s.cfg ∧ t.commandPort = s.commandPort ∧ t.partialWord = s.partialWord ∧
    t.agenda = s.agenda ∧ t.choices = s.choices ∧
    (s.seq = .idle → t.status ∈ [0x01, 0x02, 0x03, 0x04, 0x05, 0x06] → t = { s with status := t.status, data := 0x00 })

/-- R54, R138: while the block is Busy a command has no move: it changes nothing, and its words stay on the port. That the model
shows "no move" as a move that changes nothing is its own choice (notes/assumptions 3). -/
def Obligations.BusyBlockAcceptsNothing : Prop :=
  ∀ (s : State) (k : Kind) (plan : List MicroOp), s.seq = .busy k plan →
    (∀ i : Instr, exec i s = .next s) ∧ (s.nextMove = .accept → step s = .next s.afterChoice)

/-- R90: `validate` reads `motors_off` and the operands and nothing else, and ADDRESS_OF reads the address table (R81): two Idle
blocks that agree on `motors_off`, and on the address table where the command is ADDRESS_OF, answer alike. -/
def Obligations.ValidationReadsOnlyMotorsOff : Prop :=
  ∀ (i : Instr) (s t s' t' : State), s.seq = .idle → t.seq = .idle → s.motorsOff = t.motorsOff →
    ((∃ j, i = .addressOf j) → s.cfg.params.addr = t.cfg.params.addr) → exec i s = .next s' → exec i t = .next t' →
    s'.seq = t'.seq ∧ s'.status = t'.status ∧ s'.data = t'.data

/-! ### The transitions -/

/-- R70, R77, R90: when the block is Idle and a whole command stands on the port, the step that accepts runs exactly that
command, and its words leave the port. -/
def Obligations.StepRunsDecodedInstruction : Prop :=
  ∀ (s : State) (i : Instr) (rest : List Word), s.nextMove = .accept → s.seq = .idle →
    decodeWords s.commandPort = .command i rest → step s = exec i { s.afterChoice with commandPort := rest }

/-- R70, R134, R140: where hosts present whole commands only, the block never loses its place: a step that presents nothing leaves
the port as it is, or takes exactly the first command off it, and what is left is whole commands. That words wait in the order they
came, and that a reset leaves what waits on the port, is the model's choice (notes/assumptions 7). -/
def Obligations.WholeCommandsStayWhole : Prop :=
  ∀ s t : State, WholeCommands s.commandPort → step s = .next t → (∀ ws, s.nextMove ≠ .present ws) →
    (∀ b, s.nextMove ≠ .presentByte b) →
    WholeCommands t.commandPort ∧
    (t.commandPort = s.commandPort ∨
      (s.nextMove = .accept ∧ s.seq = .idle ∧
        ∃ i rest, s.commandPort = encode i ++ rest ∧ t.commandPort = rest ∧ step s = exec i { s.afterChoice with commandPort := rest }))

/-- The next step of a state with a fetch word placed runs the instruction that the decoder reads from the word, and the decoder
reads one from every word. That the host places it by presenting it to an Idle block is the model's choice
(notes/assumptions 4). -/
def Obligations.FetchWordRunsTableInstruction : Prop :=
  ∀ (nbits w : Nat), ∃ i : Instr, decodeTableWord nbits w = some i ∧
    ∀ s : State, step (s.withFetchWord nbits w) = exec i { s with seq := .idle }

/-- R107: "There is no condition in this domain that is fatal": every step of every state answers a next state. -/
def Obligations.NoStepFaultsOrRefuses : Prop := ∀ s : State, ∃ t, step s = .next t

/-- R86: the commutation step. With the gate open, a StepOp at the head of the plan advances its joint's phase modulo 4 and its
position, pulses the byte of the NEW phase, and changes nothing else. -/
def Obligations.StepOpTransition : Prop :=
  ∀ (s : State) (k : Kind) (j : JointIdx) (d : Dir) (rest : List MicroOp),
    s.nextMove = .sequencer → s.seq = .busy k (.stepOp j d :: rest) → s.last + s.tMin ≤ s.now →
    ∃ (t : State) (b : Byte), step s = .next t ∧ b = s.addr j ||| s.phasePattern (t.phase j) ∧
      ((t.phase j).val : Int) = ((s.phase j).val + d.delta) % 4 ∧
      (s.posWidth = .unbounded → t.pos j = s.pos j + d.delta) ∧
      (∀ n, s.posWidth = .bits n → t.pos j = (s.pos j + d.delta).bmod (2 ^ n)) ∧
      (∀ i : JointIdx, t.energized i = s.energized i) ∧ (∀ i : JointIdx, i ≠ j → t.joints[i] = s.joints[i]) ∧
      t = { s.afterChoice with
        joints := t.joints
        seq := .busy k rest
        bus := some b
        portLog := s.portLog ++ [(s.now, b ||| 0x01), (s.now, b)]
        last := s.now }

/-- R87: with the gate open, a StrobeOp at the head of the plan pulses its joint at the held phase, or with the address bits
only, and changes no phase and no position. -/
def Obligations.StrobeOpTransition : Prop :=
  ∀ (s : State) (k : Kind) (j : JointIdx) (on : Bool) (rest : List MicroOp) (b : Byte),
    s.nextMove = .sequencer → s.seq = .busy k (.strobeOp j on :: rest) → s.last + s.tMin ≤ s.now →
    b = (if on = true then s.addr j ||| s.phasePattern (s.phase j) else s.addr j) →
    step s = .next { s.afterChoice with
      seq := .busy k rest
      bus := some b
      portLog := s.portLog ++ [(s.now, b ||| 0x01), (s.now, b)]
      last := s.now }

/-- R88, R103: SetOff waits for no gate, writes no byte, and writes `motors_off` and all six `energized` together. -/
def Obligations.SetOffTransition : Prop :=
  ∀ (s : State) (k : Kind) (b : Bool) (rest : List MicroOp),
    s.nextMove = .sequencer → s.seq = .busy k (.setOff b :: rest) →
    ∃ t, step s = .next t ∧
      (∀ j : JointIdx, t.energized j = !b ∧ t.phase j = s.phase j ∧ t.pos j = s.pos j) ∧
      t = { s.afterChoice with joints := t.joints, motorsOff := b, seq := .busy k rest }

/-- R84: while `now - last < T_MIN` a pulse at the head of the plan holds: the sequencer's turn changes nothing (that a turn which
is not enabled is a move that changes nothing is the model's choice, notes/assumptions 3). -/
def Obligations.ClosedGateHolds : Prop :=
  ∀ (s : State) (k : Kind) (op : MicroOp) (rest : List MicroOp),
    s.nextMove = .sequencer → s.seq = .busy k (op :: rest) → (∀ b, op ≠ .setOff b) → s.now < s.last + s.tMin →
    step s = .next s.afterChoice

/-- R89: an empty plan completes the command. -/
def Obligations.CompletionTransition : Prop :=
  ∀ (s : State) (k : Kind), s.nextMove = .sequencer → s.seq = .busy k [] →
    step s = .next { s.afterChoice with seq := .idle, status := 0x00, data := 0x00 }

/-- R130: the reset transition, in any state of the block; R131: the rest of a plan is discarded, the port history stays. That it
also leaves what hosts have presented, `commandPort` and `partialWord`, is the model's choice and no part of R130
(notes/assumptions 7). -/
def Obligations.ResetTransition : Prop :=
  ∀ s : State, s.nextMove = .reset →
    ∃ t, step s = .next t ∧
      (∀ j : JointIdx, t.phase j = 0 ∧ t.pos j = 0 ∧ t.energized j = true) ∧
      t = { s.afterChoice with
        joints := t.joints
        motorsOff := false
        last := s.now
        seq := .idle
        status := 0x00
        data := 0x00 }

/-- R39, R134: what a reset leaves is `FRESH` at the time of the reset, with the port as it was; `State.reset` is such a state at
time 0 with no byte written (notes/assumptions 5, 6). That `FRESH` asks for `now = t0` is the model's choice (notes/assumptions
18). -/
def Obligations.ResetLeavesFresh : Prop :=
  (∀ s t : State, s.nextMove = .reset → step s = .next t →
    fresh s.now t ∧ t.now = s.now ∧ t.bus = s.bus ∧ t.portLog = s.portLog ∧ t.cfg = s.cfg) ∧
  fresh 0 State.reset ∧ State.reset.bus = none ∧ State.reset.portLog = []

/-- R129: in a final state nothing but a reset or a further command changes what is observed: time may pass, the block's turns
and acceptances find nothing to do (turns and acceptances that change nothing: notes/assumptions 3). A part of a command may wait
on the port of a final state (R45, R77). -/
def Obligations.FinalStatesStayObserved : Prop :=
  ∀ s t : State, final s = true → step s = .next t → s.nextMove ≠ .reset →
    observe t = observe s ∧ (final t = true ∨ (∃ ws, s.nextMove = .present ws) ∨ ∃ b, s.nextMove = .presentByte b)

/-- R144: time advance changes `now` and no block state; R31: it is the only way `now` changes. -/
def Obligations.OnlyTicksChangeTime : Prop :=
  ∀ s t : State, step s = .next t →
    (∀ delta, s.nextMove = .tick delta → t = { s.afterChoice with now := s.now + delta }) ∧
    ((∀ delta, s.nextMove ≠ .tick delta) → t.now = s.now)

/-- R15, R90, R144: a move that is not enabled changes nothing. That a run may try one at all is the model's own way of showing an
open order (notes/assumptions 3). -/
def Obligations.DisabledMovesChangeNothing : Prop :=
  ∀ s : State, s.afterChoice.enabled s.nextMove = false → step s = .next s.afterChoice

/-! ### Who writes what -/

/-- R34: no transition writes the configuration. -/
def Obligations.ConfigurationIsNeverWritten : Prop := ∀ s t : State, Steps s t → t.cfg = s.cfg

/-- R22, R23, R25: a joint's phase or position changes only by a StepOp on that joint, or by reset. -/
def Obligations.OnlyStepOpsMoveJoints : Prop :=
  ∀ (s t : State) (j : JointIdx), step s = .next t → t.phase j ≠ s.phase j ∨ t.pos j ≠ s.pos j →
    s.nextMove = .reset ∨
    (s.nextMove = .sequencer ∧ ∃ k d rest, s.seq = .busy k (.stepOp j d :: rest))

/-- R24, R26, R103: `motors_off` and `energized` change only by SetOff, or by reset. -/
def Obligations.OnlySetOffWritesFlags : Prop :=
  ∀ s t : State, step s = .next t → (t.motorsOff ≠ s.motorsOff ∨ ∃ j : JointIdx, t.energized j ≠ s.energized j) →
    s.nextMove = .reset ∨
    (s.nextMove = .sequencer ∧ ∃ k b rest, s.seq = .busy k (.setOff b :: rest))

/-- R27: `last` changes only by a pulse, to the time of that pulse, or by reset, to the time of the reset. -/
def Obligations.OnlyPulsesWriteLast : Prop :=
  ∀ s t : State, step s = .next t → t.last ≠ s.last →
    t.last = s.now ∧ (s.nextMove = .reset ∨ ∃ p : Pulse, p.time = s.now ∧ t.portLog = s.portLog ++ p.writes)

/-- R48, R83, R84: a step leaves the port as it is, or it is a sequencer's turn whose head is a StepOp or a StrobeOp, with the gate
open, and appends exactly one pulse: strobe high, strobe low, both now, equal bits 7 to 1. -/
def Obligations.PortChangesOnlyByWholePulses : Prop :=
  ∀ s t : State, step s = .next t →
    (t.portLog = s.portLog ∧ t.bus = s.bus) ∨
    (s.nextMove = .sequencer ∧ s.last + s.tMin ≤ s.now ∧
      (∃ k op rest, s.seq = .busy k (op :: rest) ∧ op.isPulse = true ∧ t.seq = .busy k rest) ∧
      ∃ b : Byte, b &&& 0x01 = 0 ∧ t.portLog = s.portLog ++ [(s.now, b ||| 0x01), (s.now, b)] ∧ t.bus = some b ∧
        t.last = s.now)

/-- R28, R97, R131: a plan only shrinks, head first; its command ends by completion of the empty plan, or by reset. -/
def Obligations.PlansOnlyShrink : Prop :=
  ∀ (s t : State) (k : Kind) (plan : List MicroOp), s.seq = .busy k plan → step s = .next t →
    t.seq = .busy k plan ∨ (∃ op, plan = op :: plan.tail ∧ t.seq = .busy k plan.tail) ∨
    (plan = [] ∧ s.nextMove = .sequencer ∧ t.seq = .idle ∧ t.status = 0x00) ∨ (s.nextMove = .reset ∧ t.seq = .idle)

/-! ### Invariants -/

/-- Every step, from every state, keeps the invariant. -/
def Obligations.StepKeepsInvariant : Prop := ∀ s t : State, Inv s → step s = .next t → Inv t

/-- The invariant holds after reset, whatever the configuration, the time of the reset and the schedule; `State.reset` is the
case of the configuration the block was built with, time 0 and nothing presented or scheduled (notes/assumptions 1, 2, 5, 6, 7). -/
def Obligations.ResetHasInvariant : Prop :=
  Inv State.reset ∧ ∀ cfg t0 port agenda choices, Inv (State.boot cfg t0 port agenda choices)

/-- R40: every reachable state satisfies I1 to I6. -/
def Obligations.ReachableStatesSatisfyR40 : Prop :=
  ∀ s : State, Reachable s →
    (∀ j : JointIdx, 0 ≤ (s.phase j).val ∧ (s.phase j).val ≤ 3) ∧
    s.last ≤ s.now ∧
    (s.seq = .idle → ∀ j : JointIdx, s.energized j = !s.motorsOff) ∧
    (∀ k plan, s.seq = .busy k plan → (∃ j d, MicroOp.stepOp j d ∈ plan) → s.motorsOff = false) ∧
    (s.status = 0x80 ↔ ∃ k plan, s.seq = .busy k plan) ∧
    ∃ ps, s.portLog = pulseWrites ps ∧ ps.Pairwise (fun p q => p.time ≤ q.time) ∧ spaced s.tMin ps = true ∧
      ∀ p ∈ ps, p.byte &&& 0x01 = 0

/-- R22, R23, R86: phase and position count the same steps, at every width of the counter. -/
def Obligations.PhaseTracksPositionForever : Prop :=
  (∀ s t : State, PhaseTracksPosition s → step s = .next t → PhaseTracksPosition t) ∧
  ∀ cfg t0 port agenda choices, PhaseTracksPosition (State.boot cfg t0 port agenda choices)

/-- R26: in every reachable state that is Idle with `motors_off` true, the bus holds the last de-energize byte, the address bits of
joint 5 (R102). -/
def Obligations.DeenergizePatternIsHeld : Prop :=
  ∀ s : State, Reachable s → s.seq = .idle → s.motorsOff = true → s.bus = some (s.addr 5)

/-! ### The life of a command, under every schedule -/

/-- R86, R99(a): `n` StepOps on a joint in one direction: the phase moves by `n` modulo 4 and the position by `n`; four of them
return the phase to its start. No other joint moves. -/
def Obligations.RepeatedStepsCount : Prop :=
  ∀ (s : State) (j : JointIdx) (d : Dir) (n : Nat), s.posWidth = .unbounded →
    ((((performAll (List.replicate n (.stepOp j d)) s).phase j).val : Int) = ((s.phase j).val + n * d.delta) % 4 ∧
      (performAll (List.replicate n (.stepOp j d)) s).pos j = s.pos j + n * d.delta ∧
      ∀ i : JointIdx, i ≠ j → (performAll (List.replicate n (.stepOp j d)) s).joints[i] = s.joints[i]) ∧
    (performAll (List.replicate 4 (.stepOp j d)) s).phase j = s.phase j

/-- R83, R84, R88, R95, R137: the pulses of a command under ANY schedule without a reset: they come in plan order, the first not
before `max(t_a, L + T_MIN)`, consecutive ones at least `T_MIN` apart, and a completed command has performed every pulse of its
plan. -/
def Obligations.PulsesOfPlanUnderAnySchedule : Prop :=
  ∀ (s u : State) (k : Kind) (plan : List MicroOp), s.seq = .busy k plan → BusySteps s u →
    ∃ ps : List Pulse, u.portLog = s.portLog ++ pulseWrites ps ∧ spaced s.tMin ps = true ∧
      startsFrom (max s.now (s.last + s.tMin)) ps = true ∧ ps.map Pulse.byte <+: planBytes plan s ∧
      (u.seq = .idle → ps.map Pulse.byte = planBytes plan s ∧ ps.length = pulseCount plan)

/-- R88, R89, R146: under ANY schedule without a reset, a completed command has the engine state and the bytes of its plan's
micro-operations performed one after the other, and answers OK. -/
def Obligations.EveryScheduleSameOutcome : Prop :=
  ∀ (s u : State) (k : Kind) (plan : List MicroOp), s.seq = .busy k plan → BusySteps s u → u.seq = .idle →
    u.joints = (performAll plan s).joints ∧ u.motorsOff = (performAll plan s).motorsOff ∧
    u.bus = (performAll plan s).bus ∧ u.portLog.map Prod.snd = (performAll plan s).portLog.map Prod.snd ∧
    u.status = 0x00 ∧ u.data = 0x00

/-- R92, R99(c): under any schedule a completed DRIVE has pulsed its joint exactly `n` times, changed its position by exactly `n`
in its direction (modulo `2^POS_WIDTH` when finite) and changed no other joint. -/
def Obligations.CompletedDriveMovesExactly : Prop :=
  ∀ (s t u : State) (j n d : Word) (i : JointIdx) (dir : Dir),
    s.seq = .idle → j.toNat = i.val → d.toNat = dirCode dir → 0 < n.toInt → s.motorsOff = false →
    exec (.drive j n d) s = .next t → BusySteps t u → u.seq = .idle →
    (s.posWidth = .unbounded → u.pos i = s.pos i + n.toInt * dir.delta) ∧
    (∀ m, s.posWidth = .bits m → u.pos i = (s.pos i + n.toInt * dir.delta).bmod (2 ^ m)) ∧
    ((u.phase i).val : Int) = ((s.phase i).val + n.toInt * dir.delta) % 4 ∧
    (∀ l : JointIdx, l ≠ i → u.joints[l] = s.joints[l]) ∧
    ∃ ps : List Pulse, u.portLog = s.portLog ++ pulseWrites ps ∧ (ps.length : Int) = n.toInt ∧
      spaced s.tMin ps = true ∧ u.status = 0x00

/-- R93, R99(e): under any schedule a completed DRIVE_MULTI has changed every joint's position by the sum of its lanes' counts,
with one pulse for every step. -/
def Obligations.CompletedDriveMultiMovesExactly : Prop :=
  ∀ (s t u : State) (js ss : List Word) (is : List JointIdx),
    s.seq = .idle → js.map BitVec.toNat = is.map Fin.val → js.length = ss.length → s.motorsOff = false →
    exec (.driveMulti js ss) s = .next t → BusySteps t u → u.seq = .idle →
    (∀ l : JointIdx,
      (s.posWidth = .unbounded → u.pos l = s.pos l + laneNet l (is.zip (ss.map BitVec.toInt))) ∧
      (∀ m, s.posWidth = .bits m → positionFits (.bits m) (s.pos l) →
        u.pos l = (s.pos l + laneNet l (is.zip (ss.map BitVec.toInt))).bmod (2 ^ m)) ∧
      ((u.phase l).val : Int) = ((s.phase l).val + laneNet l (is.zip (ss.map BitVec.toInt))) % 4 ∧
      (l ∉ is → u.joints[l] = s.joints[l])) ∧
    ∃ ps : List Pulse, u.portLog = s.portLog ++ pulseWrites ps ∧ ps.length = laneTotal (is.zip (ss.map BitVec.toInt)) ∧
      spaced s.tMin ps = true ∧ u.status = 0x00

/-- R100, R101, R103, R104: under any schedule a completed SET_ENERGIZED has pulsed the six joints in index order, with the address
bits only or at the held phases, has set the flags, and has changed no phase and no position, so that a later step goes on from the
held phase. -/
def Obligations.CompletedSetEnergizedHoldsPhases : Prop :=
  ∀ (s t u : State) (en : Bool), s.seq = .idle → exec (.setEnergized en) s = .next t → BusySteps t u → u.seq = .idle →
    u.motorsOff = !en ∧ (∀ j : JointIdx, u.energized j = en ∧ u.phase j = s.phase j ∧ u.pos j = s.pos j) ∧
    u.status = 0x00 ∧
    ∃ ps : List Pulse, u.portLog = s.portLog ++ pulseWrites ps ∧ spaced s.tMin ps = true ∧
      ps.map Pulse.byte =
        (List.finRange 6).map fun j => if en = true then s.addr j ||| s.phasePattern (s.phase j) else s.addr j

/-- R95: under the eager schedule the pulses of a plan come at exactly `max(t_a, L + T_MIN) + (k - 1) * T_MIN`, and the command
completes with the outcome of its plan. Where the gate is open already the schedule has a tick of 0, which changes nothing
(notes/assumptions 3). -/
def Obligations.EagerScheduleTimes : Prop :=
  ∀ (s : State) (k : Kind) (plan : List MicroOp) (later : List Move), s.seq = .busy k plan →
    s.agenda = eagerMoves s.tMin (s.gateTime - s.now) plan ++ later →
    ∃ u, core.run (eagerMoves s.tMin (s.gateTime - s.now) plan).length s = .next u ∧
      u.seq = .idle ∧ u.status = 0x00 ∧ u.data = 0x00 ∧ u.agenda = later ∧ u.joints = (performAll plan s).joints ∧
      u.motorsOff = (performAll plan s).motorsOff ∧
      u.portLog = s.portLog ++ pulseWrites (pulseTrain s.tMin s.gateTime (planBytes plan s)) ∧
      (planBytes plan s).length = pulseCount plan

/-- R84, R88: enough turns, each after enough time, complete a command. If the moves to come hold no reset, and hold one more turn of
the sequencer than the plan has micro-operations, each after time has advanced by `T_MIN` in whatever ticks since the last one
counted (with any other moves, and any other turns, between), then within these moves the block is Idle. That the turns and the
time are a premise on the schedule is notes/assumptions 14. -/
def Obligations.TimedTurnsCompleteCommand : Prop :=
  ∀ (s : State) (k : Kind) (plan : List MicroOp) (ms later : List Move), s.seq = .busy k plan → s.last ≤ s.now →
    s.agenda = ms ++ later → Move.reset ∉ ms → plan.length + 1 ≤ timedTurns s.tMin 0 ms →
    ∃ n u, n ≤ ms.length ∧ core.run n s = .next u ∧ BusySteps s u ∧ u.seq = .idle

/-- R88, R146: every weakly fair schedule without a reset completes the command: after some number of its moves the block is Idle.
Fairness is a premise on the schedule and no part of the step (notes/assumptions 14). -/
def Obligations.WeaklyFairSchedulesComplete : Prop :=
  ∀ (s : State) (k : Kind) (plan : List MicroOp) (schedule : Nat → Move), s.seq = .busy k plan →
    (∀ n, schedule n ≠ .reset) → weaklyFair schedule s →
    ∃ n u, core.run n { s with agenda := (List.range n).map schedule } = .next u ∧
      BusySteps { s with agenda := (List.range n).map schedule } u ∧ u.seq = .idle

/-- R139: after a reset no byte is written before the time of the reset plus `T_MIN`, whatever happens. -/
def Obligations.NoPulseSoonAfterReset : Prop :=
  ∀ s t u : State, s.nextMove = .reset → step s = .next t → Steps t u →
    ∃ new : List (Nat × Byte), u.portLog = s.portLog ++ new ∧ ∀ e ∈ new, s.now + s.tMin ≤ e.1

/-- R98, R112: with `motors_off` true every motion command is refused by one of its diagnostics, with no byte written and no plan. -/
def Obligations.MotorsOffRefusesMotion : Prop :=
  ∀ (s : State) (j n d : Word) (js ss : List Word), s.seq = .idle → s.motorsOff = true →
    (∃ c : Byte, c ∈ [0x01, 0x02, 0x05] ∧ exec (.step j d) s = .next { s with status := c, data := 0x00 }) ∧
    (∃ c : Byte, c ∈ [0x01, 0x02, 0x03, 0x05] ∧ exec (.drive j n d) s = .next { s with status := c, data := 0x00 }) ∧
    (∃ c : Byte, c ∈ [0x01, 0x04, 0x05] ∧ exec (.driveMulti js ss) s = .next { s with status := c, data := 0x00 })

/-- R22, R23, R37: no run shows the host a phase or a position: two blocks that differ in them, and in the bytes on the output port,
alone, show the same `status` and `data` after every step of the same schedule. -/
def Obligations.HostNeverSeesPhaseOrPosition : Prop :=
  ∀ (n : Nat) (s t s' : State), SameToHost s t → core.run n s = .next s' →
    ∃ t', core.run n t = .next t' ∧ SameToHost s' t' ∧ s'.readStatus = t'.readStatus ∧ s'.readData = t'.readData
end

