-- ==== Sys2Proof/Laws/Decode.lean ====
section
/-! SUPPORT. The fields of a header word, and the three views of it that the spec gives side by side: the opcode map of R61 with
R71, the length function of R72, and the mask and value rows of R72. -/

namespace Sys2Proof

/-- A header is its opcode above its 24 low bits (R58). -/
theorem hdr_toNat_opcode (h : Word) : h.toNat = (h.extractLsb' 24 8).toNat * 2 ^ 24 + (h.extractLsb' 0 24).toNat := by
  simp [BitVec.extractLsb'_toNat, Nat.shiftRight_eq_div_pow]; omega

/-- The 24 low bits are the field of format HM that is reserved, and the two counts (R58). -/
theorem hdr_toNat_counts (h : Word) :
    (h.extractLsb' 0 24).toNat =
      (h.extractLsb' 16 8).toNat * 2 ^ 16 + (h.extractLsb' 8 8).toNat * 2 ^ 8 + (h.extractLsb' 0 8).toNat := by
  simp [BitVec.extractLsb'_toNat, Nat.shiftRight_eq_div_pow]; omega

/-- Format HN: the header is its opcode and zeros (R62, R63, R67). -/
theorem hdr_eq_iff (h : Word) (c : BitVec 8) :
    h = c.setWidth 32 <<< 24 ↔ h.extractLsb' 24 8 = c ∧ h.extractLsb' 0 24 = 0 := by
  have hc := c.isLt
  have hh := hdr_toNat_opcode h
  simp only [← BitVec.toNat_inj, BitVec.toNat_shiftLeft, BitVec.toNat_setWidth, Nat.shiftLeft_eq, BitVec.ofNat_eq_ofNat,
    BitVec.toNat_ofNat] at *
  omega

theorem hdr_step_iff (h : Word) : h = 0x01000000 ↔ h.extractLsb' 24 8 = 1 ∧ h.extractLsb' 0 24 = 0 := hdr_eq_iff h 1

theorem hdr_drive_iff (h : Word) : h = 0x02000000 ↔ h.extractLsb' 24 8 = 2 ∧ h.extractLsb' 0 24 = 0 := hdr_eq_iff h 2

theorem hdr_addressOf_iff (h : Word) : h = 0x05000000 ↔ h.extractLsb' 24 8 = 5 ∧ h.extractLsb' 0 24 = 0 := hdr_eq_iff h 5

theorem and_high16 (h : Word) : (h &&& 0xFFFF0000 : Word) = (h >>> 16) <<< 16 := by
  ext i hi
  interval_cases i <;> simp [BitVec.getElem_and]

theorem and_high31 (h : Word) : (h &&& 0xFFFFFFFE : Word) = (h >>> 1) <<< 1 := by
  ext i hi
  interval_cases i <;> simp [BitVec.getElem_and]

/-- Format HM (R64). -/
theorem hdr_multi_iff (h : Word) :
    h &&& 0xFFFF0000 = 0x03000000 ↔ h.extractLsb' 24 8 = 3 ∧ h.extractLsb' 16 8 = 0 := by
  rw [and_high16]
  simp only [← BitVec.toNat_inj, BitVec.toNat_shiftLeft, BitVec.toNat_ushiftRight, Nat.shiftLeft_eq,
    Nat.shiftRight_eq_div_pow, BitVec.extractLsb'_toNat, BitVec.ofNat_eq_ofNat, BitVec.toNat_ofNat]
  omega

/-- Format HE (R65). -/
theorem hdr_energize_iff (h : Word) :
    h &&& 0xFFFFFFFE = 0x04000000 ↔ h.extractLsb' 24 8 = 4 ∧ h.extractLsb' 1 23 = 0 := by
  rw [and_high31]
  simp only [← BitVec.toNat_inj, BitVec.toNat_shiftLeft, BitVec.toNat_ushiftRight, Nat.shiftLeft_eq,
    Nat.shiftRight_eq_div_pow, BitVec.extractLsb'_toNat, BitVec.ofNat_eq_ofNat, BitVec.toNat_ofNat]
  omega

theorem hnReservedZero_iff (h : Word) : hnReservedZero h = true ↔ h.extractLsb' 0 24 = 0 := by simp [hnReservedZero]

theorem hmReservedZero_iff (h : Word) : hmReservedZero h = true ↔ h.extractLsb' 16 8 = 0 := by simp [hmReservedZero]

theorem heReservedZero_iff (h : Word) : heReservedZero h = true ↔ h.extractLsb' 1 23 = 0 := by simp [heReservedZero]

/-- The length a class of headers has (R61). -/
def HeaderClass.words : HeaderClass → Nat
  | .step => 3
  | .drive => 4
  | .driveMulti njw nsw => 1 + njw + nsw
  | .setEnergized _ => 1
  | .addressOf => 2
  | .illegal => 1

/-- R61 and R72 agree on the length of every header. -/
theorem commandLength_eq_words (h : Word) : commandLength h = (classify h).words := by
  unfold commandLength classify
  simp only [hnReservedZero_iff, hmReservedZero_iff, heReservedZero_iff, hdr_step_iff, hdr_drive_iff, hdr_multi_iff,
    hdr_energize_iff, hdr_addressOf_iff, hdrOpcode]
  split_ifs <;> rfl

/-- R61 and the rows of R72 agree on which headers are legal. -/
theorem legalHeader_iff (h : Word) : legalHeader h = true ↔ classify h ≠ .illegal := by
  have hm : h &&& 0xFFFFFFFF = h := BitVec.and_allOnes (x := h)
  unfold legalHeader classify opcodeRows
  simp only [List.any_cons, List.any_nil, OpcodeRow.covers, hm, Bool.or_false, Bool.or_eq_true, beq_iff_eq, hnReservedZero_iff,
    hmReservedZero_iff, heReservedZero_iff, hdr_step_iff, hdr_drive_iff, hdr_multi_iff, hdr_energize_iff, hdr_addressOf_iff,
    hdrOpcode]
  split_ifs <;> simp_all

/-- What the decoder does with a header whose operand words are all there (R72, R77). -/
theorem decodeWords_cons (hdr : Word) (rest : List Word) (h : commandLength hdr ≤ rest.length + 1) :
    decodeWords (hdr :: rest) =
      .command (decodeCommand hdr (rest.take (commandLength hdr - 1))) (rest.drop (commandLength hdr - 1)) := by
  rw [decodeWords, if_neg (by omega)]

/-- What the decoder does with a header whose operand words are not all there (R77). -/
theorem decodeWords_short (hdr : Word) (rest : List Word) (h : rest.length + 1 < commandLength hdr) :
    decodeWords (hdr :: rest) = .rejected .partialCommand := by
  rw [decodeWords, if_pos h]

/-- Four bytes, least significant first, make their word again (R44). -/
theorem wordOfBytes_bytesOfWord (w : Word) :
    wordOfBytes (w.extractLsb' 0 8) (w.extractLsb' 8 8) (w.extractLsb' 16 8) (w.extractLsb' 24 8) = w := by
  apply BitVec.eq_of_toNat_eq
  unfold wordOfBytes
  have lt : ∀ n : Nat, n % 2 ^ 8 < 2 ^ 8 := fun n => Nat.mod_lt _ (by decide)
  simp only [BitVec.toNat_append, BitVec.extractLsb'_toNat, Nat.shiftRight_eq_div_pow]
  rw [← Nat.shiftLeft_add_eq_or_of_lt (lt _), ← Nat.shiftLeft_add_eq_or_of_lt (lt _), ← Nat.shiftLeft_add_eq_or_of_lt (lt _)]
  have := w.isLt
  simp only [Nat.shiftLeft_eq]
  omega

end Sys2Proof
end

