-- ==== Sys2Proof/Laws/State.lean ====
section
/-! SUPPORT. One lemma for each field and each named update of State: what the update leaves in the field. Every one is true by
rfl and a simp rule, so that no later proof unfolds a record update. -/

namespace Sys2Proof.Machine

section

variable (s : State)

/-! `State.portWrite` -/

@[simp] theorem State.portWrite_cfg (b : Byte) : (s.portWrite b).cfg = s.cfg := rfl
@[simp] theorem State.portWrite_joints (b : Byte) : (s.portWrite b).joints = s.joints := rfl
@[simp] theorem State.portWrite_motorsOff (b : Byte) : (s.portWrite b).motorsOff = s.motorsOff := rfl
@[simp] theorem State.portWrite_last (b : Byte) : (s.portWrite b).last = s.last := rfl
@[simp] theorem State.portWrite_seq (b : Byte) : (s.portWrite b).seq = s.seq := rfl
@[simp] theorem State.portWrite_status (b : Byte) : (s.portWrite b).status = s.status := rfl
@[simp] theorem State.portWrite_data (b : Byte) : (s.portWrite b).data = s.data := rfl
@[simp] theorem State.portWrite_bus (b : Byte) : (s.portWrite b).bus = some b := rfl
@[simp] theorem State.portWrite_portLog (b : Byte) : (s.portWrite b).portLog = s.portLog ++ [(s.now, b)] := rfl
@[simp] theorem State.portWrite_now (b : Byte) : (s.portWrite b).now = s.now := rfl
@[simp] theorem State.portWrite_commandPort (b : Byte) : (s.portWrite b).commandPort = s.commandPort := rfl
@[simp] theorem State.portWrite_partialWord (b : Byte) : (s.portWrite b).partialWord = s.partialWord := rfl
@[simp] theorem State.portWrite_agenda (b : Byte) : (s.portWrite b).agenda = s.agenda := rfl
@[simp] theorem State.portWrite_choices (b : Byte) : (s.portWrite b).choices = s.choices := rfl

/-! `State.pulse` -/

@[simp] theorem State.pulse_cfg (b : Byte) : (s.pulse b).cfg = s.cfg := rfl
@[simp] theorem State.pulse_joints (b : Byte) : (s.pulse b).joints = s.joints := rfl
@[simp] theorem State.pulse_motorsOff (b : Byte) : (s.pulse b).motorsOff = s.motorsOff := rfl
@[simp] theorem State.pulse_last (b : Byte) : (s.pulse b).last = s.now := rfl
@[simp] theorem State.pulse_seq (b : Byte) : (s.pulse b).seq = s.seq := rfl
@[simp] theorem State.pulse_status (b : Byte) : (s.pulse b).status = s.status := rfl
@[simp] theorem State.pulse_data (b : Byte) : (s.pulse b).data = s.data := rfl
@[simp] theorem State.pulse_bus (b : Byte) : (s.pulse b).bus = some b := rfl
@[simp] theorem State.pulse_portLog (b : Byte) : (s.pulse b).portLog = s.portLog ++ [(s.now, b ||| enableBit)] ++ [(s.now, b)] := rfl
@[simp] theorem State.pulse_now (b : Byte) : (s.pulse b).now = s.now := rfl
@[simp] theorem State.pulse_commandPort (b : Byte) : (s.pulse b).commandPort = s.commandPort := rfl
@[simp] theorem State.pulse_partialWord (b : Byte) : (s.pulse b).partialWord = s.partialWord := rfl
@[simp] theorem State.pulse_agenda (b : Byte) : (s.pulse b).agenda = s.agenda := rfl
@[simp] theorem State.pulse_choices (b : Byte) : (s.pulse b).choices = s.choices := rfl

/-! `State.setOff` -/

@[simp] theorem State.setOff_cfg (b : Bool) : (s.setOff b).cfg = s.cfg := rfl
@[simp] theorem State.setOff_joints (b : Bool) : (s.setOff b).joints = Vector.ofFn fun j : JointIdx => { s.joints[j] with energized := !b } := rfl
@[simp] theorem State.setOff_motorsOff (b : Bool) : (s.setOff b).motorsOff = b := rfl
@[simp] theorem State.setOff_last (b : Bool) : (s.setOff b).last = s.last := rfl
@[simp] theorem State.setOff_seq (b : Bool) : (s.setOff b).seq = s.seq := rfl
@[simp] theorem State.setOff_status (b : Bool) : (s.setOff b).status = s.status := rfl
@[simp] theorem State.setOff_data (b : Bool) : (s.setOff b).data = s.data := rfl
@[simp] theorem State.setOff_bus (b : Bool) : (s.setOff b).bus = s.bus := rfl
@[simp] theorem State.setOff_portLog (b : Bool) : (s.setOff b).portLog = s.portLog := rfl
@[simp] theorem State.setOff_now (b : Bool) : (s.setOff b).now = s.now := rfl
@[simp] theorem State.setOff_commandPort (b : Bool) : (s.setOff b).commandPort = s.commandPort := rfl
@[simp] theorem State.setOff_partialWord (b : Bool) : (s.setOff b).partialWord = s.partialWord := rfl
@[simp] theorem State.setOff_agenda (b : Bool) : (s.setOff b).agenda = s.agenda := rfl
@[simp] theorem State.setOff_choices (b : Bool) : (s.setOff b).choices = s.choices := rfl

/-! `State.advance` -/

@[simp] theorem State.advance_cfg (j : JointIdx) (d : Dir) : (s.advance j d).cfg = s.cfg := rfl
@[simp] theorem State.advance_joints (j : JointIdx) (d : Dir) : (s.advance j d).joints = s.joints.set j { s.joints[j] with phaseIndex := advancePhase (s.phase j) d, positionCount := wrapPosition s.posWidth (s.pos j + d.delta) } := rfl
@[simp] theorem State.advance_motorsOff (j : JointIdx) (d : Dir) : (s.advance j d).motorsOff = s.motorsOff := rfl
@[simp] theorem State.advance_last (j : JointIdx) (d : Dir) : (s.advance j d).last = s.last := rfl
@[simp] theorem State.advance_seq (j : JointIdx) (d : Dir) : (s.advance j d).seq = s.seq := rfl
@[simp] theorem State.advance_status (j : JointIdx) (d : Dir) : (s.advance j d).status = s.status := rfl
@[simp] theorem State.advance_data (j : JointIdx) (d : Dir) : (s.advance j d).data = s.data := rfl
@[simp] theorem State.advance_bus (j : JointIdx) (d : Dir) : (s.advance j d).bus = s.bus := rfl
@[simp] theorem State.advance_portLog (j : JointIdx) (d : Dir) : (s.advance j d).portLog = s.portLog := rfl
@[simp] theorem State.advance_now (j : JointIdx) (d : Dir) : (s.advance j d).now = s.now := rfl
@[simp] theorem State.advance_commandPort (j : JointIdx) (d : Dir) : (s.advance j d).commandPort = s.commandPort := rfl
@[simp] theorem State.advance_partialWord (j : JointIdx) (d : Dir) : (s.advance j d).partialWord = s.partialWord := rfl
@[simp] theorem State.advance_agenda (j : JointIdx) (d : Dir) : (s.advance j d).agenda = s.agenda := rfl
@[simp] theorem State.advance_choices (j : JointIdx) (d : Dir) : (s.advance j d).choices = s.choices := rfl

/-! `State.stepOp` -/

@[simp] theorem State.stepOp_cfg (j : JointIdx) (d : Dir) : (s.stepOp j d).cfg = s.cfg := rfl
@[simp] theorem State.stepOp_joints (j : JointIdx) (d : Dir) : (s.stepOp j d).joints = (s.advance j d).joints := rfl
@[simp] theorem State.stepOp_motorsOff (j : JointIdx) (d : Dir) : (s.stepOp j d).motorsOff = s.motorsOff := rfl
@[simp] theorem State.stepOp_last (j : JointIdx) (d : Dir) : (s.stepOp j d).last = s.now := rfl
@[simp] theorem State.stepOp_seq (j : JointIdx) (d : Dir) : (s.stepOp j d).seq = s.seq := rfl
@[simp] theorem State.stepOp_status (j : JointIdx) (d : Dir) : (s.stepOp j d).status = s.status := rfl
@[simp] theorem State.stepOp_data (j : JointIdx) (d : Dir) : (s.stepOp j d).data = s.data := rfl
@[simp] theorem State.stepOp_bus (j : JointIdx) (d : Dir) : (s.stepOp j d).bus = some ((s.advance j d).stepByte j) := rfl
@[simp] theorem State.stepOp_portLog (j : JointIdx) (d : Dir) : (s.stepOp j d).portLog = s.portLog ++ [(s.now, (s.advance j d).stepByte j ||| enableBit)] ++ [(s.now, (s.advance j d).stepByte j)] := rfl
@[simp] theorem State.stepOp_now (j : JointIdx) (d : Dir) : (s.stepOp j d).now = s.now := rfl
@[simp] theorem State.stepOp_commandPort (j : JointIdx) (d : Dir) : (s.stepOp j d).commandPort = s.commandPort := rfl
@[simp] theorem State.stepOp_partialWord (j : JointIdx) (d : Dir) : (s.stepOp j d).partialWord = s.partialWord := rfl
@[simp] theorem State.stepOp_agenda (j : JointIdx) (d : Dir) : (s.stepOp j d).agenda = s.agenda := rfl
@[simp] theorem State.stepOp_choices (j : JointIdx) (d : Dir) : (s.stepOp j d).choices = s.choices := rfl

/-! `State.diag` -/

@[simp] theorem State.diag_cfg (e : Diagnostic) : (s.diag e).cfg = s.cfg := rfl
@[simp] theorem State.diag_joints (e : Diagnostic) : (s.diag e).joints = s.joints := rfl
@[simp] theorem State.diag_motorsOff (e : Diagnostic) : (s.diag e).motorsOff = s.motorsOff := rfl
@[simp] theorem State.diag_last (e : Diagnostic) : (s.diag e).last = s.last := rfl
@[simp] theorem State.diag_seq (e : Diagnostic) : (s.diag e).seq = s.seq := rfl
@[simp] theorem State.diag_status (e : Diagnostic) : (s.diag e).status = e.code := rfl
@[simp] theorem State.diag_data (e : Diagnostic) : (s.diag e).data = 0x00 := rfl
@[simp] theorem State.diag_bus (e : Diagnostic) : (s.diag e).bus = s.bus := rfl
@[simp] theorem State.diag_portLog (e : Diagnostic) : (s.diag e).portLog = s.portLog := rfl
@[simp] theorem State.diag_now (e : Diagnostic) : (s.diag e).now = s.now := rfl
@[simp] theorem State.diag_commandPort (e : Diagnostic) : (s.diag e).commandPort = s.commandPort := rfl
@[simp] theorem State.diag_partialWord (e : Diagnostic) : (s.diag e).partialWord = s.partialWord := rfl
@[simp] theorem State.diag_agenda (e : Diagnostic) : (s.diag e).agenda = s.agenda := rfl
@[simp] theorem State.diag_choices (e : Diagnostic) : (s.diag e).choices = s.choices := rfl

/-! `State.finishAtOnce` -/

@[simp] theorem State.finishAtOnce_cfg : (s.finishAtOnce).cfg = s.cfg := rfl
@[simp] theorem State.finishAtOnce_joints : (s.finishAtOnce).joints = s.joints := rfl
@[simp] theorem State.finishAtOnce_motorsOff : (s.finishAtOnce).motorsOff = s.motorsOff := rfl
@[simp] theorem State.finishAtOnce_last : (s.finishAtOnce).last = s.last := rfl
@[simp] theorem State.finishAtOnce_seq : (s.finishAtOnce).seq = s.seq := rfl
@[simp] theorem State.finishAtOnce_status : (s.finishAtOnce).status = statusOK := rfl
@[simp] theorem State.finishAtOnce_data : (s.finishAtOnce).data = 0x00 := rfl
@[simp] theorem State.finishAtOnce_bus : (s.finishAtOnce).bus = s.bus := rfl
@[simp] theorem State.finishAtOnce_portLog : (s.finishAtOnce).portLog = s.portLog := rfl
@[simp] theorem State.finishAtOnce_now : (s.finishAtOnce).now = s.now := rfl
@[simp] theorem State.finishAtOnce_commandPort : (s.finishAtOnce).commandPort = s.commandPort := rfl
@[simp] theorem State.finishAtOnce_partialWord : (s.finishAtOnce).partialWord = s.partialWord := rfl
@[simp] theorem State.finishAtOnce_agenda : (s.finishAtOnce).agenda = s.agenda := rfl
@[simp] theorem State.finishAtOnce_choices : (s.finishAtOnce).choices = s.choices := rfl

/-! `State.beginPlan` -/

@[simp] theorem State.beginPlan_cfg (k : Kind) (plan : List MicroOp) : (s.beginPlan k plan).cfg = s.cfg := rfl
@[simp] theorem State.beginPlan_joints (k : Kind) (plan : List MicroOp) : (s.beginPlan k plan).joints = s.joints := rfl
@[simp] theorem State.beginPlan_motorsOff (k : Kind) (plan : List MicroOp) : (s.beginPlan k plan).motorsOff = s.motorsOff := rfl
@[simp] theorem State.beginPlan_last (k : Kind) (plan : List MicroOp) : (s.beginPlan k plan).last = s.last := rfl
@[simp] theorem State.beginPlan_seq (k : Kind) (plan : List MicroOp) : (s.beginPlan k plan).seq = .busy k plan := rfl
@[simp] theorem State.beginPlan_status (k : Kind) (plan : List MicroOp) : (s.beginPlan k plan).status = statusBusy := rfl
@[simp] theorem State.beginPlan_data (k : Kind) (plan : List MicroOp) : (s.beginPlan k plan).data = 0x00 := rfl
@[simp] theorem State.beginPlan_bus (k : Kind) (plan : List MicroOp) : (s.beginPlan k plan).bus = s.bus := rfl
@[simp] theorem State.beginPlan_portLog (k : Kind) (plan : List MicroOp) : (s.beginPlan k plan).portLog = s.portLog := rfl
@[simp] theorem State.beginPlan_now (k : Kind) (plan : List MicroOp) : (s.beginPlan k plan).now = s.now := rfl
@[simp] theorem State.beginPlan_commandPort (k : Kind) (plan : List MicroOp) : (s.beginPlan k plan).commandPort = s.commandPort := rfl
@[simp] theorem State.beginPlan_partialWord (k : Kind) (plan : List MicroOp) : (s.beginPlan k plan).partialWord = s.partialWord := rfl
@[simp] theorem State.beginPlan_agenda (k : Kind) (plan : List MicroOp) : (s.beginPlan k plan).agenda = s.agenda := rfl
@[simp] theorem State.beginPlan_choices (k : Kind) (plan : List MicroOp) : (s.beginPlan k plan).choices = s.choices := rfl

/-! `State.complete` -/

@[simp] theorem State.complete_cfg : (s.complete).cfg = s.cfg := rfl
@[simp] theorem State.complete_joints : (s.complete).joints = s.joints := rfl
@[simp] theorem State.complete_motorsOff : (s.complete).motorsOff = s.motorsOff := rfl
@[simp] theorem State.complete_last : (s.complete).last = s.last := rfl
@[simp] theorem State.complete_seq : (s.complete).seq = .idle := rfl
@[simp] theorem State.complete_status : (s.complete).status = statusOK := rfl
@[simp] theorem State.complete_data : (s.complete).data = 0x00 := rfl
@[simp] theorem State.complete_bus : (s.complete).bus = s.bus := rfl
@[simp] theorem State.complete_portLog : (s.complete).portLog = s.portLog := rfl
@[simp] theorem State.complete_now : (s.complete).now = s.now := rfl
@[simp] theorem State.complete_commandPort : (s.complete).commandPort = s.commandPort := rfl
@[simp] theorem State.complete_partialWord : (s.complete).partialWord = s.partialWord := rfl
@[simp] theorem State.complete_agenda : (s.complete).agenda = s.agenda := rfl
@[simp] theorem State.complete_choices : (s.complete).choices = s.choices := rfl

/-! `State.resetBlock` -/

@[simp] theorem State.resetBlock_cfg : (s.resetBlock).cfg = s.cfg := rfl
@[simp] theorem State.resetBlock_joints : (s.resetBlock).joints = Vector.replicate 6 CommutationState.initial := rfl
@[simp] theorem State.resetBlock_motorsOff : (s.resetBlock).motorsOff = false := rfl
@[simp] theorem State.resetBlock_last : (s.resetBlock).last = s.now := rfl
@[simp] theorem State.resetBlock_seq : (s.resetBlock).seq = .idle := rfl
@[simp] theorem State.resetBlock_status : (s.resetBlock).status = statusOK := rfl
@[simp] theorem State.resetBlock_data : (s.resetBlock).data = 0x00 := rfl
@[simp] theorem State.resetBlock_bus : (s.resetBlock).bus = s.bus := rfl
@[simp] theorem State.resetBlock_portLog : (s.resetBlock).portLog = s.portLog := rfl
@[simp] theorem State.resetBlock_now : (s.resetBlock).now = s.now := rfl
@[simp] theorem State.resetBlock_commandPort : (s.resetBlock).commandPort = s.commandPort := rfl
@[simp] theorem State.resetBlock_partialWord : (s.resetBlock).partialWord = s.partialWord := rfl
@[simp] theorem State.resetBlock_agenda : (s.resetBlock).agenda = s.agenda := rfl
@[simp] theorem State.resetBlock_choices : (s.resetBlock).choices = s.choices := rfl

/-! `State.advanceTime` -/

@[simp] theorem State.advanceTime_cfg (delta : Nat) : (s.advanceTime delta).cfg = s.cfg := rfl
@[simp] theorem State.advanceTime_joints (delta : Nat) : (s.advanceTime delta).joints = s.joints := rfl
@[simp] theorem State.advanceTime_motorsOff (delta : Nat) : (s.advanceTime delta).motorsOff = s.motorsOff := rfl
@[simp] theorem State.advanceTime_last (delta : Nat) : (s.advanceTime delta).last = s.last := rfl
@[simp] theorem State.advanceTime_seq (delta : Nat) : (s.advanceTime delta).seq = s.seq := rfl
@[simp] theorem State.advanceTime_status (delta : Nat) : (s.advanceTime delta).status = s.status := rfl
@[simp] theorem State.advanceTime_data (delta : Nat) : (s.advanceTime delta).data = s.data := rfl
@[simp] theorem State.advanceTime_bus (delta : Nat) : (s.advanceTime delta).bus = s.bus := rfl
@[simp] theorem State.advanceTime_portLog (delta : Nat) : (s.advanceTime delta).portLog = s.portLog := rfl
@[simp] theorem State.advanceTime_now (delta : Nat) : (s.advanceTime delta).now = s.now + delta := rfl
@[simp] theorem State.advanceTime_commandPort (delta : Nat) : (s.advanceTime delta).commandPort = s.commandPort := rfl
@[simp] theorem State.advanceTime_partialWord (delta : Nat) : (s.advanceTime delta).partialWord = s.partialWord := rfl
@[simp] theorem State.advanceTime_agenda (delta : Nat) : (s.advanceTime delta).agenda = s.agenda := rfl
@[simp] theorem State.advanceTime_choices (delta : Nat) : (s.advanceTime delta).choices = s.choices := rfl

/-! `State.presentWords` -/

@[simp] theorem State.presentWords_cfg (ws : List Word) : (s.presentWords ws).cfg = s.cfg := rfl
@[simp] theorem State.presentWords_joints (ws : List Word) : (s.presentWords ws).joints = s.joints := rfl
@[simp] theorem State.presentWords_motorsOff (ws : List Word) : (s.presentWords ws).motorsOff = s.motorsOff := rfl
@[simp] theorem State.presentWords_last (ws : List Word) : (s.presentWords ws).last = s.last := rfl
@[simp] theorem State.presentWords_seq (ws : List Word) : (s.presentWords ws).seq = s.seq := rfl
@[simp] theorem State.presentWords_status (ws : List Word) : (s.presentWords ws).status = s.status := rfl
@[simp] theorem State.presentWords_data (ws : List Word) : (s.presentWords ws).data = s.data := rfl
@[simp] theorem State.presentWords_bus (ws : List Word) : (s.presentWords ws).bus = s.bus := rfl
@[simp] theorem State.presentWords_portLog (ws : List Word) : (s.presentWords ws).portLog = s.portLog := rfl
@[simp] theorem State.presentWords_now (ws : List Word) : (s.presentWords ws).now = s.now := rfl
@[simp] theorem State.presentWords_commandPort (ws : List Word) : (s.presentWords ws).commandPort = s.commandPort ++ ws := rfl
@[simp] theorem State.presentWords_partialWord (ws : List Word) : (s.presentWords ws).partialWord = s.partialWord := rfl
@[simp] theorem State.presentWords_agenda (ws : List Word) : (s.presentWords ws).agenda = s.agenda := rfl
@[simp] theorem State.presentWords_choices (ws : List Word) : (s.presentWords ws).choices = s.choices := rfl

/-! `State.withCommand` -/

@[simp] theorem State.withCommand_cfg (ws : List Word) : (s.withCommand ws).cfg = s.cfg := rfl
@[simp] theorem State.withCommand_joints (ws : List Word) : (s.withCommand ws).joints = s.joints := rfl
@[simp] theorem State.withCommand_motorsOff (ws : List Word) : (s.withCommand ws).motorsOff = s.motorsOff := rfl
@[simp] theorem State.withCommand_last (ws : List Word) : (s.withCommand ws).last = s.last := rfl
@[simp] theorem State.withCommand_seq (ws : List Word) : (s.withCommand ws).seq = .idle := rfl
@[simp] theorem State.withCommand_status (ws : List Word) : (s.withCommand ws).status = s.status := rfl
@[simp] theorem State.withCommand_data (ws : List Word) : (s.withCommand ws).data = s.data := rfl
@[simp] theorem State.withCommand_bus (ws : List Word) : (s.withCommand ws).bus = s.bus := rfl
@[simp] theorem State.withCommand_portLog (ws : List Word) : (s.withCommand ws).portLog = s.portLog := rfl
@[simp] theorem State.withCommand_now (ws : List Word) : (s.withCommand ws).now = s.now := rfl
@[simp] theorem State.withCommand_commandPort (ws : List Word) : (s.withCommand ws).commandPort = ws ++ s.commandPort := rfl
@[simp] theorem State.withCommand_partialWord (ws : List Word) : (s.withCommand ws).partialWord = s.partialWord := rfl
@[simp] theorem State.withCommand_agenda (ws : List Word) : (s.withCommand ws).agenda = .accept :: s.agenda := rfl
@[simp] theorem State.withCommand_choices (ws : List Word) : (s.withCommand ws).choices = s.choices := rfl

end

end Sys2Proof.Machine
end

