-- ==== Sys2Proof/Laws/Ops.lean ====
section
/-! SUPPORT. What each shared operation can do, said once: the readings of the per-joint file after an update, the operand
forms, acceptance, the sequencer's turn, each move, and the step. -/

namespace Sys2Proof.Machine

section

variable (s : State) (j i : JointIdx) (d : Dir)

/-! Readings that only pass through the configuration or the joints. -/

theorem State.addr_congr (t : State) (h : t.cfg = s.cfg) : t.addr j = s.addr j := by simp only [State.addr, h]

theorem State.tMin_congr (t : State) (h : t.cfg = s.cfg) : t.tMin = s.tMin := by simp only [State.tMin, h]

theorem State.posWidth_congr (t : State) (h : t.cfg = s.cfg) : t.posWidth = s.posWidth := by simp only [State.posWidth, h]

/-- A byte of the address table has bit 0 clear (R10). -/
theorem addr_bit0 (c : Config) : c.params.addr[j].getLsbD 0 = false := by
  have h := c.wf
  simp only [Params.wf, Bool.and_eq_true, Params.addrStrobeClear, decide_eq_true_eq] at h
  exact h.1.1.1.1 j

/-- A byte of the phase table has bit 0 clear (R11). -/
theorem phase_bit0 (c : Config) (p : PhaseIdx) : c.params.phase[p].getLsbD 0 = false := by
  have h := c.wf
  simp only [Params.wf, Bool.and_eq_true, Params.phaseStrobeClear, decide_eq_true_eq] at h
  exact h.1.1.2 p

/-- The composed byte of a step has bit 0 clear (R10, R11, R85). -/
theorem stepByte_bit0 : (s.stepByte j).getLsbD 0 = false := by
  rw [State.stepByte, BitVec.getLsbD_or]
  exact Bool.or_eq_false_iff.mpr ⟨addr_bit0 j s.cfg, phase_bit0 s.cfg (s.phase j)⟩

/-- A finite position width is at least 2 (R9). -/
theorem posWidth_two_le {n : Nat} (h : s.posWidth = .bits n) : 2 ≤ n := by
  have hw := s.cfg.wf
  simp only [Params.wf, Bool.and_eq_true, Params.posWidthOk] at hw
  rw [State.posWidth] at h
  rw [h] at hw
  simpa using hw.1.2

/-! The micro-operations, joint by joint. -/

theorem State.advance_phase :
    (s.advance j d).phase i = if j = i then advancePhase (s.phase j) d else s.phase i := by
  simp only [State.phase, State.advance, Fin.getElem_fin, Vector.getElem_set]
  split <;> simp_all [Fin.ext_iff]

theorem State.advance_pos :
    (s.advance j d).pos i = if j = i then wrapPosition s.posWidth (s.pos j + d.delta) else s.pos i := by
  simp only [State.pos, State.advance, Fin.getElem_fin, Vector.getElem_set]
  split <;> simp_all [Fin.ext_iff]

theorem State.advance_energized : (s.advance j d).energized i = s.energized i := by
  simp only [State.energized, State.advance, Fin.getElem_fin, Vector.getElem_set]
  split <;> simp_all

/-- StepOp on joint `j` moves joint `j` alone (R86). -/
theorem State.stepOp_phase :
    (s.stepOp j d).phase i = if j = i then advancePhase (s.phase j) d else s.phase i :=
  State.advance_phase s j i d

theorem State.stepOp_pos :
    (s.stepOp j d).pos i = if j = i then wrapPosition s.posWidth (s.pos j + d.delta) else s.pos i :=
  State.advance_pos s j i d

theorem State.stepOp_energized : (s.stepOp j d).energized i = s.energized i := State.advance_energized s j i d

/-- The byte StepOp pulses: the address with the pattern of the new phase (R85, R86). -/
theorem State.advance_stepByte :
    (s.advance j d).stepByte j = s.addr j ||| s.phasePattern (advancePhase (s.phase j) d) := by
  rw [State.stepByte, State.advance_phase, if_pos rfl]
  rfl

@[simp] theorem State.setOff_phase (b : Bool) : (s.setOff b).phase i = s.phase i := by
  simp [State.phase, State.setOff]

@[simp] theorem State.setOff_pos (b : Bool) : (s.setOff b).pos i = s.pos i := by
  simp [State.pos, State.setOff]

@[simp] theorem State.setOff_energized (b : Bool) : (s.setOff b).energized i = !b := by
  simp [State.energized, State.setOff]

/-- The byte a StrobeOp pulses (R87). -/
def State.strobeByte (on : Bool) : Byte := if on then s.stepByte j else s.addr j

/-- StrobeOp is one pulse and nothing else (R87). -/
theorem State.strobeOp_eq_pulse (on : Bool) : s.strobeOp j on = s.pulse (s.strobeByte j on) := by
  cases on <;> rfl

theorem State.strobeByte_bit0 (on : Bool) : (s.strobeByte j on).getLsbD 0 = false := by
  cases on
  · exact addr_bit0 j s.cfg
  · exact stepByte_bit0 s j

/-- What a micro-operation leaves alone, whichever it is (R86, R87, R103). -/
theorem State.perform_frame (op : MicroOp) :
    (s.perform op).cfg = s.cfg ∧ (s.perform op).seq = s.seq ∧ (s.perform op).status = s.status ∧
    (s.perform op).data = s.data ∧ (s.perform op).now = s.now ∧ (s.perform op).commandPort = s.commandPort ∧
    (s.perform op).partialWord = s.partialWord ∧ (s.perform op).agenda = s.agenda ∧
    (s.perform op).choices = s.choices := by
  cases op with
  | stepOp j d => exact ⟨rfl, rfl, rfl, rfl, rfl, rfl, rfl, rfl, rfl⟩
  | strobeOp j on => cases on <;> exact ⟨rfl, rfl, rfl, rfl, rfl, rfl, rfl, rfl, rfl⟩
  | setOff b => exact ⟨rfl, rfl, rfl, rfl, rfl, rfl, rfl, rfl, rfl⟩

/-- A micro-operation either is a pulse on a byte with bit 0 clear, or is SetOff and writes no port (R83, R86, R87, R103). -/
theorem State.perform_port (op : MicroOp) :
    (op.isPulse = true ∧ ∃ b : Byte, b.getLsbD 0 = false ∧ (s.perform op).bus = some b ∧ (s.perform op).last = s.now ∧
      (s.perform op).portLog = s.portLog ++ [(s.now, b ||| enableBit), (s.now, b)]) ∨
    (op.isPulse = false ∧ (s.perform op).bus = s.bus ∧ (s.perform op).last = s.last ∧
      (s.perform op).portLog = s.portLog) := by
  cases op with
  | stepOp j d =>
    exact .inl ⟨rfl, _, stepByte_bit0 (s.advance j d) j, rfl, rfl, by simp [State.perform]⟩
  | strobeOp j on =>
    refine .inl ⟨rfl, s.strobeByte j on, State.strobeByte_bit0 s j on, ?_, ?_, ?_⟩ <;>
      simp [State.perform, State.strobeOp_eq_pulse]
  | setOff b => exact .inr ⟨rfl, rfl, rfl, rfl⟩

end

/-! Operand forms. -/

theorem jointOperand_some {w : Word} {j : JointIdx} : jointOperand w = some j ↔ w.toNat = j.val := by
  unfold jointOperand
  split
  · simp [Fin.ext_iff]
  · simp; omega

theorem jointOperand_none {w : Word} : jointOperand w = none ↔ 5 < w.toNat := by
  unfold jointOperand
  split
  · simp; omega
  · simp; omega

theorem dirOperand_none {w : Word} : dirOperand w = none ↔ 1 < w.toNat := by
  unfold dirOperand
  split
  · simp_all
  · split
    · simp_all
    · rename_i h0 h1
      simp only [true_iff]
      have h0' : w.toNat ≠ 0 := fun h => h0 (BitVec.eq_of_toNat_eq (by simpa using h))
      have h1' : w.toNat ≠ 1 := fun h => h1 (BitVec.eq_of_toNat_eq (by simpa using h))
      omega

/-- Every entry in range: the list of joints has the list's length (R93). -/
theorem jointOperands_length : ∀ {js : List Word} {is : List JointIdx}, jointOperands js = some is → is.length = js.length
  | [], is, h => by cases h; rfl
  | w :: ws, is, h => by
    unfold jointOperands at h
    split at h
    · rename_i i is' _ h'
      cases h
      simp [jointOperands_length h']
    · cases h

/-! Acceptance. -/

theorem State.whenIdle_idle {s : State} (act : State → State) (h : s.seq = .idle) : s.whenIdle act = act s := by
  unfold State.whenIdle
  rw [h]

theorem State.whenIdle_busy {s : State} {k : Kind} {plan : List MicroOp} (act : State → State)
    (h : s.seq = .busy k plan) : s.whenIdle act = s := by
  unfold State.whenIdle
  rw [h]

/-- Acceptance of a command with a plan: a diagnostic, an immediate end, or a plan (R90). -/
theorem State.conclude_cases (s : State) (k : Kind) (v : Except Diagnostic (List MicroOp)) :
    (∃ e, v = .error e ∧ s.conclude k v = s.diag e) ∨
    (v = .ok [] ∧ s.conclude k v = s.finishAtOnce) ∨
    (∃ plan, v = .ok plan ∧ plan ≠ [] ∧ s.conclude k v = s.beginPlan k plan) := by
  match v with
  | .error e => exact .inl ⟨e, rfl, rfl⟩
  | .ok [] => exact .inr (.inl ⟨rfl, rfl⟩)
  | .ok (op :: ops) => exact .inr (.inr ⟨op :: ops, rfl, by simp, rfl⟩)

/-- Every command answers a next state, and on a busy block that state is the state itself (R90, R107, R138). -/
theorem exec_busy {s : State} {k : Kind} {plan : List MicroOp} (i : Instr) (h : s.seq = .busy k plan) :
    exec i s = .next s := by
  cases i <;>
    simp [exec, execStep, execDrive, execDriveMulti, execSetEnergized, execAddressOf, execIllegal, State.acceptPlan,
      State.whenIdle_busy _ h]

/-- What a command can do to an idle block: a diagnostic, an end at once with a value in `data`, or a plan (R81, R90, R113). The
plan, if there is one, is the one its `validate` built. -/
theorem exec_idle_cases {s : State} (i : Instr) (h : s.seq = .idle) :
    ∃ t, exec i s = .next t ∧
      ((∃ e, t = s.diag e) ∨ t = s.finishAtOnce ∨
       (∃ j : JointIdx, t = { s with data := s.cfg.params.addr[j], status := statusOK }) ∨
       (∃ k plan, plan ≠ [] ∧ t = s.beginPlan k plan ∧
         ((k = .setEnergized ∧ ∃ en, plan = energizePlan en) ∨
          (k ≠ .setEnergized ∧ s.motorsOff = false ∧ ∀ op ∈ plan, ∃ j d, op = .stepOp j d)))) := by
  have roundOps_steps : ∀ (lanes : List Lane) (r : Nat), ∀ op ∈ roundOps lanes r, ∃ j d, op = .stepOp j d := by
    intro lanes r op hop
    simp only [roundOps, List.mem_filterMap] at hop
    obtain ⟨l, _, hl⟩ := hop
    split at hl
    · cases hl; exact ⟨_, _, rfl⟩
    · cases hl
  have rounds_steps : ∀ (lanes : List Lane) (n r : Nat), ∀ op ∈ roundsFrom lanes n r, ∃ j d, op = .stepOp j d := by
    intro lanes n
    induction n with
    | zero => intro r op hop; simp [roundsFrom] at hop
    | succ n ih =>
      intro r op hop
      simp only [roundsFrom, List.mem_append] at hop
      exact hop.elim (roundOps_steps lanes r op) (ih (r + 1) op)
  have motion : ∀ (k : Kind) (v : Except Diagnostic (List MicroOp)), k ≠ .setEnergized →
      (∀ plan, v = .ok plan → s.motorsOff = false ∧ ∀ op ∈ plan, ∃ j d, op = .stepOp j d) →
      ∃ t, (Host.Outcome.next (s.acceptPlan k v) : Host.Outcome State Fault Refusal) = .next t ∧
      ((∃ e, t = s.diag e) ∨ t = s.finishAtOnce ∨
       (∃ j : JointIdx, t = { s with data := s.cfg.params.addr[j], status := statusOK }) ∨
       (∃ k plan, plan ≠ [] ∧ t = s.beginPlan k plan ∧
         ((k = .setEnergized ∧ ∃ en, plan = energizePlan en) ∨
          (k ≠ .setEnergized ∧ s.motorsOff = false ∧ ∀ op ∈ plan, ∃ j d, op = .stepOp j d)))) := by
    intro k v hk hv
    refine ⟨_, rfl, ?_⟩
    rw [State.acceptPlan, State.whenIdle_idle _ h]
    rcases State.conclude_cases s k v with ⟨e, _, ht⟩ | ⟨_, ht⟩ | ⟨plan, hp, hne, ht⟩
    · exact .inl ⟨e, ht⟩
    · exact .inr (.inl ht)
    · exact .inr (.inr (.inr ⟨k, plan, hne, ht, .inr ⟨hk, hv plan hp⟩⟩))
  cases i with
  | step j d =>
    refine motion .step _ (by decide) fun plan hp => ?_
    unfold validateStep at hp
    split at hp
    · cases hp
    · split at hp
      · cases hp
      · split at hp
        · cases hp
        · cases hp
          simp_all
  | drive j n d =>
    refine motion .drive _ (by decide) fun plan hp => ?_
    unfold validateDrive at hp
    split at hp
    · cases hp
    · split at hp
      · cases hp
      · split at hp
        · cases hp
        · split at hp
          · cases hp
          · cases hp
            refine ⟨by simp_all, fun op hop => ?_⟩
            exact ⟨_, _, (List.mem_replicate.mp hop).2⟩
  | driveMulti js ss =>
    refine motion .driveMulti _ (by decide) fun plan hp => ?_
    unfold validateDriveMulti at hp
    split at hp
    · cases hp
    · split at hp
      · cases hp
      · split at hp
        · cases hp
        · cases hp
          exact ⟨by simp_all, rounds_steps _ _ _⟩
  | setEnergized en =>
    refine ⟨_, rfl, .inr (.inr (.inr ⟨.setEnergized, energizePlan en, by simp [energizePlan], ?_, .inl ⟨rfl, en, rfl⟩⟩))⟩
    rw [State.acceptPlan, State.whenIdle_idle _ h]
    rfl
  | addressOf j =>
    refine ⟨_, rfl, ?_⟩
    rw [State.whenIdle_idle _ h]
    unfold registryAddress
    split
    · exact .inl ⟨_, rfl⟩
    · rename_i i _
      exact .inr (.inr (.inl ⟨i, rfl⟩))
  | illegal hdr =>
    refine ⟨_, rfl, .inl ⟨.illegalCommand, ?_⟩⟩
    rw [State.whenIdle_idle _ h]

/-! The transitions. -/

/-- The sequencer's turn: nothing when Idle or held at the gate, one micro-operation, or completion (R84, R88, R89). -/
theorem State.sequencerTurn_cases (s : State) :
    (s.seq = .idle ∧ s.sequencerTurn = s) ∨
    (∃ k, s.seq = .busy k [] ∧ s.sequencerTurn = s.complete) ∨
    (∃ k op rest, s.seq = .busy k (op :: rest) ∧ s.headEnabled op = false ∧ s.sequencerTurn = s) ∨
    (∃ k op rest, s.seq = .busy k (op :: rest) ∧ s.headEnabled op = true ∧
      s.sequencerTurn = { s.perform op with seq := .busy k rest }) := by
  unfold State.sequencerTurn
  split
  · exact .inl ⟨by assumption, rfl⟩
  · exact .inr (.inl ⟨_, by assumption, rfl⟩)
  · split
    · exact .inr (.inr (.inr ⟨_, _, _, by assumption, by assumption, rfl⟩))
    · exact .inr (.inr (.inl ⟨_, _, _, by assumption, by simp_all, rfl⟩))

/-- Acceptance: nothing while Busy or on a prefix of a command, else the command presented (R77, R90, R138). -/
theorem State.acceptTurn_cases (s : State) :
    (∃ k plan, s.seq = .busy k plan ∧ s.acceptTurn = .next s) ∨
    (s.seq = .idle ∧ ∃ why, decodeWords s.commandPort = .rejected why ∧ s.acceptTurn = .next s) ∨
    (s.seq = .idle ∧ ∃ i rest, decodeWords s.commandPort = .command i rest ∧
      s.acceptTurn = exec i { s with commandPort := rest }) := by
  unfold State.acceptTurn
  split
  · exact .inl ⟨_, _, by assumption, rfl⟩
  · split
    · exact .inr (.inl ⟨by assumption, _, by assumption, rfl⟩)
    · exact .inr (.inr ⟨by assumption, _, _, by assumption, rfl⟩)

/-- What a delivered byte can do: complete a word, or wait for the rest of it (R44, R45). -/
theorem State.presentByte_cases (s : State) (b : Byte) :
    (∃ b0 b1 b2, s.partialWord = [b0, b1, b2] ∧
      s.presentByte b = { s with partialWord := [], commandPort := s.commandPort ++ [wordOfBytes b0 b1 b2 b] }) ∨
    (s.partialWord.length ≠ 3 ∧ s.presentByte b = { s with partialWord := s.partialWord ++ [b] }) := by
  unfold State.presentByte
  split
  · rename_i b0 b1 b2 b3 h
    have h' : s.partialWord ++ [b] = [b0, b1, b2] ++ [b3] := h
    obtain ⟨h1, h2⟩ := List.append_inj' h' rfl
    cases h2
    exact .inl ⟨b0, b1, b2, h1, rfl⟩
  · rename_i h
    refine .inr ⟨fun hl => ?_, rfl⟩
    match hp : s.partialWord, hl with
    | [b0, b1, b2], _ => exact h b0 b1 b2 b (by rw [hp]; rfl)

/-- Choosing a move changes the agenda or the counter of free choices and nothing else (R146). -/
theorem State.afterChoice_cases (s : State) :
    (∃ m ms, s.agenda = m :: ms ∧ s.nextMove = m ∧ s.afterChoice = { s with agenda := ms }) ∨
    (s.agenda = [] ∧ s.nextMove = Config.freeMove s.choices ∧ s.afterChoice = { s with choices := s.choices + 1 }) := by
  unfold State.nextMove State.afterChoice
  cases h : s.agenda with
  | nil => exact .inr ⟨rfl, rfl, rfl⟩
  | cons m ms => exact .inl ⟨m, ms, rfl, rfl, rfl⟩

/-- Choosing a move leaves every field of the spec's as it is. -/
theorem State.afterChoice_frame (s : State) :
    s.afterChoice.cfg = s.cfg ∧ s.afterChoice.joints = s.joints ∧ s.afterChoice.motorsOff = s.motorsOff ∧
    s.afterChoice.last = s.last ∧ s.afterChoice.seq = s.seq ∧ s.afterChoice.status = s.status ∧
    s.afterChoice.data = s.data ∧ s.afterChoice.bus = s.bus ∧ s.afterChoice.portLog = s.portLog ∧
    s.afterChoice.now = s.now ∧ s.afterChoice.commandPort = s.commandPort ∧
    s.afterChoice.partialWord = s.partialWord := by
  rcases State.afterChoice_cases s with ⟨m, ms, _, _, h⟩ | ⟨_, _, h⟩ <;> rw [h] <;>
    exact ⟨rfl, rfl, rfl, rfl, rfl, rfl, rfl, rfl, rfl, rfl, rfl, rfl⟩

end Sys2Proof.Machine
end

