-- ==== Sys2Proof/Laws/PerInstr.lean ====
section
/-! SUPPORT. A law of every instruction as syntax, constructor by constructor: the word its encoding begins with classifies as
the instruction's own row of R61, with its own fields, and asks for as many words as the encoding has. -/

namespace Sys2Proof

/-- The row of R61 an instruction belongs to, with the header fields of R58. -/
def Instr.headerClass : Instr → HeaderClass
  | .step _ _ => .step
  | .drive _ _ _ => .drive
  | .driveMulti js ss => .driveMulti js.length ss.length
  | .setEnergized en => .setEnergized en
  | .addressOf _ => .addressOf
  | .illegal _ => .illegal

end Sys2Proof

namespace Sys2Proof.Laws.HeaderRow

/-- A well-formed instruction's header word belongs to its own row, and its words are as many as the row says (R61, R72). -/
def Statement (i : Instr) : Prop :=
  i.wf = true → classify (headerWord i) = i.headerClass ∧ (encode i).length = i.headerClass.words

theorem step (j d : Word) : Statement (.step j d) := fun _ => ⟨by simp only [headerWord, Instr.headerClass]; decide, rfl⟩

theorem drive (j s d : Word) : Statement (.drive j s d) := fun _ => ⟨by simp only [headerWord, Instr.headerClass]; decide, rfl⟩

/-- The three bytes below the opcode of a DRIVE_MULTI header, as one number (R64). -/
theorem multi_header_toNat (x y : BitVec 8) :
    (0x03000000 ||| (BitVec.ofNat 32 x.toNat <<< 8) ||| BitVec.ofNat 32 y.toNat : Word).toNat =
      0x03000000 + x.toNat * 256 + y.toNat := by
  have hx := x.isLt
  have hy := y.isLt
  have e : (0x03000000 ||| (BitVec.ofNat 32 x.toNat <<< 8) ||| BitVec.ofNat 32 y.toNat : Word) =
      (0x0300 : BitVec 16) ++ x ++ y := by
    apply BitVec.eq_of_toNat_eq
    have m1 : x.toNat % 4294967296 = x.toNat := Nat.mod_eq_of_lt (by omega)
    have m2 : y.toNat % 4294967296 = y.toNat := Nat.mod_eq_of_lt (by omega)
    have m3 : (x.toNat <<< 8) % 4294967296 = x.toNat <<< 8 := Nat.mod_eq_of_lt (by rw [Nat.shiftLeft_eq]; omega)
    simp only [BitVec.toNat_append, BitVec.toNat_or, BitVec.toNat_shiftLeft, BitVec.toNat_ofNat, Nat.reducePow, m1, m2, m3]
    rw [Nat.shiftLeft_or_distrib]
    rfl
  rw [e]
  simp only [BitVec.toNat_append]
  rw [← Nat.shiftLeft_add_eq_or_of_lt hx, ← Nat.shiftLeft_add_eq_or_of_lt hy]
  simp only [Nat.shiftLeft_eq, BitVec.ofNat_eq_ofNat, BitVec.toNat_ofNat]
  omega

/-- A DRIVE_MULTI header holds its opcode, zeros, and the two counts (R64). -/
theorem classify_multi_header (x y : BitVec 8) :
    classify (0x03000000 ||| (BitVec.ofNat 32 x.toNat <<< 8) ||| BitVec.ofNat 32 y.toNat) =
      .driveMulti x.toNat y.toNat := by
  have hx := x.isLt
  have hy := y.isLt
  have hn := multi_header_toNat x y
  generalize (0x03000000 ||| (BitVec.ofNat 32 x.toNat <<< 8) ||| BitVec.ofNat 32 y.toNat : Word) = h at hn ⊢
  have f1 : hdrOpcode h = 3 := by
    apply BitVec.eq_of_toNat_eq
    simp only [hdrOpcode, BitVec.extractLsb'_toNat, Nat.shiftRight_eq_div_pow, hn, BitVec.ofNat_eq_ofNat, BitVec.toNat_ofNat]
    omega
  have f2 : hmReservedZero h = true := by
    rw [hmReservedZero_iff]
    apply BitVec.eq_of_toNat_eq
    simp only [BitVec.extractLsb'_toNat, Nat.shiftRight_eq_div_pow, hn, BitVec.ofNat_eq_ofNat, BitVec.toNat_ofNat]
    omega
  have f3 : hdrNJW h = x.toNat := by
    simp only [hdrNJW, BitVec.extractLsb'_toNat, Nat.shiftRight_eq_div_pow, hn]
    omega
  have f4 : hdrNSW h = y.toNat := by
    simp only [hdrNSW, BitVec.extractLsb'_toNat, Nat.shiftRight_eq_div_pow, hn]
    omega
  unfold classify
  rw [f1, f2, f3, f4]
  simp

theorem driveMulti (js ss : List Word) : Statement (.driveMulti js ss) := by
  intro h
  simp only [Instr.wf, countFits, Bool.and_eq_true, decide_eq_true_eq] at h
  refine ⟨?_, by simp [encode, operandWords, Instr.headerClass, HeaderClass.words]; omega⟩
  have e1 : (BitVec.ofNat 8 js.length).toNat = js.length := by simp only [BitVec.toNat_ofNat]; omega
  have e2 : (BitVec.ofNat 8 ss.length).toNat = ss.length := by simp only [BitVec.toNat_ofNat]; omega
  have := classify_multi_header (BitVec.ofNat 8 js.length) (BitVec.ofNat 8 ss.length)
  rw [e1, e2] at this
  exact this

theorem setEnergized (en : Bool) : Statement (.setEnergized en) := fun _ =>
  ⟨by cases en <;> simp only [headerWord] <;> decide, rfl⟩

theorem addressOf (j : Word) : Statement (.addressOf j) := fun _ => ⟨by simp only [headerWord, Instr.headerClass]; decide, rfl⟩

theorem illegal (hdr : Word) : Statement (.illegal hdr) := by
  intro h
  have hf : legalHeader hdr = false := by simpa [Instr.wf] using h
  refine ⟨by_contra fun hne => ?_, rfl⟩
  rw [(legalHeader_iff hdr).mpr hne] at hf
  cases hf

end Sys2Proof.Laws.HeaderRow
end

