-- ==== Sys2Proof/Laws/Step.lean ====
section
/-! SUPPORT. What one step can do, said once, and the laws of a sequencer's turn that invariants rest on. -/

namespace Sys2Proof.Machine

/-- What acceptance can do to the state `r` it starts from: nothing, or the whole command that stands on the port (R77, R90). -/
def AcceptOutcome (r t : State) : Prop :=
  t = r ∨ (r.seq = .idle ∧ ∃ i rest, decodeWords r.commandPort = .command i rest ∧
    exec i { r with commandPort := rest } = .next t)

/-- If acceptance answers next `t`, one of these holds. -/
theorem State.acceptTurn_inv {r t : State} (h : r.acceptTurn = .next t) : AcceptOutcome r t := by
  rcases State.acceptTurn_cases r with ⟨_, _, _, hr⟩ | ⟨_, _, _, hr⟩ | ⟨hi, i, rest, hd, hr⟩
  · rw [hr] at h; cases h; exact .inl rfl
  · rw [hr] at h; cases h; exact .inl rfl
  · rw [hr] at h; exact .inr ⟨hi, i, rest, hd, h⟩

/-- If a step answers next `t`, then `t` comes from the state after the choice by the chosen move: words or a byte presented, an
acceptance, a sequencer's turn, an advance of time, or a reset (R146). -/
theorem step_cases {s t : State} (h : step s = .next t) :
    (∃ ws, s.nextMove = .present ws ∧ t = s.afterChoice.presentWords ws) ∨
    (∃ b, s.nextMove = .presentByte b ∧ t = s.afterChoice.presentByte b) ∨
    (s.nextMove = .accept ∧ AcceptOutcome s.afterChoice t) ∨
    (s.nextMove = .sequencer ∧ t = s.afterChoice.sequencerTurn) ∨
    (∃ delta, s.nextMove = .tick delta ∧ t = s.afterChoice.advanceTime delta) ∨
    (s.nextMove = .reset ∧ t = s.afterChoice.resetBlock) := by
  unfold step State.makeMove at h
  split at h
  · cases h; exact .inl ⟨_, by assumption, rfl⟩
  · cases h; exact .inr (.inl ⟨_, by assumption, rfl⟩)
  · exact .inr (.inr (.inl ⟨by assumption, State.acceptTurn_inv h⟩))
  · cases h; exact .inr (.inr (.inr (.inl ⟨by assumption, rfl⟩)))
  · cases h; exact .inr (.inr (.inr (.inr (.inl ⟨_, by assumption, rfl⟩))))
  · cases h; exact .inr (.inr (.inr (.inr (.inr ⟨by assumption, rfl⟩))))

/-- What acceptance leaves alone (R90): everything but `seq`, `status`, `data` and the words on the port. -/
theorem AcceptOutcome.frame {r t : State} (h : AcceptOutcome r t) :
    t.cfg = r.cfg ∧ t.joints = r.joints ∧ t.motorsOff = r.motorsOff ∧ t.last = r.last ∧ t.bus = r.bus ∧
    t.portLog = r.portLog ∧ t.now = r.now ∧ t.partialWord = r.partialWord ∧ t.agenda = r.agenda ∧
    t.choices = r.choices := by
  rcases h with h | ⟨hi, i, rest, _, h⟩
  · rw [h]; exact ⟨rfl, rfl, rfl, rfl, rfl, rfl, rfl, rfl, rfl, rfl⟩
  · obtain ⟨u, hu, hc⟩ := exec_idle_cases (s := { r with commandPort := rest }) i hi
    rw [hu] at h
    cases h
    rcases hc with ⟨e, h⟩ | h | ⟨j, h⟩ | ⟨k, plan, _, h, _⟩ <;> rw [h] <;>
      exact ⟨rfl, rfl, rfl, rfl, rfl, rfl, rfl, rfl, rfl, rfl⟩

/-- A delivered byte changes only what stands on the host's side of the command port (R44). -/
theorem State.presentByte_frame (s : State) (b : Byte) :
    (s.presentByte b).cfg = s.cfg ∧ (s.presentByte b).joints = s.joints ∧ (s.presentByte b).motorsOff = s.motorsOff ∧
    (s.presentByte b).last = s.last ∧ (s.presentByte b).seq = s.seq ∧ (s.presentByte b).status = s.status ∧
    (s.presentByte b).data = s.data ∧ (s.presentByte b).bus = s.bus ∧ (s.presentByte b).portLog = s.portLog ∧
    (s.presentByte b).now = s.now ∧ (s.presentByte b).agenda = s.agenda ∧ (s.presentByte b).choices = s.choices := by
  rcases State.presentByte_cases s b with ⟨_, _, _, _, h⟩ | ⟨_, h⟩ <;> rw [h] <;>
    exact ⟨rfl, rfl, rfl, rfl, rfl, rfl, rfl, rfl, rfl, rfl, rfl, rfl⟩

/-- The sequencer's turn leaves these alone, whatever it does (R88, R89). -/
theorem State.sequencerTurn_frame (s : State) :
    s.sequencerTurn.cfg = s.cfg ∧ s.sequencerTurn.now = s.now ∧ s.sequencerTurn.commandPort = s.commandPort ∧
    s.sequencerTurn.partialWord = s.partialWord ∧ s.sequencerTurn.agenda = s.agenda ∧
    s.sequencerTurn.choices = s.choices := by
  rcases State.sequencerTurn_cases s with ⟨_, h⟩ | ⟨_, _, h⟩ | ⟨_, _, _, _, _, h⟩ | ⟨_, op, _, _, _, h⟩
  · rw [h]; exact ⟨rfl, rfl, rfl, rfl, rfl, rfl⟩
  · rw [h]; exact ⟨rfl, rfl, rfl, rfl, rfl, rfl⟩
  · rw [h]; exact ⟨rfl, rfl, rfl, rfl, rfl, rfl⟩
  · obtain ⟨h1, _, _, _, h5, h6, h7, h8, h9⟩ := State.perform_frame s op
    rw [h]; exact ⟨h1, h5, h6, h7, h8, h9⟩

/-! The pulses of a history. -/

theorem pulsesOf_append_pulse {l : List (Nat × Byte)} {ps : List Pulse} (h : pulsesOf l = some ps) {t : Nat} {b : Byte}
    (hb : b.getLsbD 0 = false) : pulsesOf (l ++ [(t, b ||| enableBit), (t, b)]) = some (ps ++ [⟨t, b⟩]) := by
  induction l using pulsesOf.induct generalizing ps with
  | case1 =>
    cases h
    simp only [List.nil_append, pulsesOf]
    rw [if_pos ⟨trivial, trivial, hb⟩]
    rfl
  | case2 => cases h
  | case3 t1 b1 t2 b2 rest hc ih =>
    simp only [pulsesOf, if_pos hc, Option.map_eq_some_iff] at h
    obtain ⟨qs, hq, rfl⟩ := h
    simp only [List.cons_append, pulsesOf, if_pos hc, ih hq, Option.map_some]
  | case4 t1 b1 t2 b2 rest hc =>
    simp only [pulsesOf, if_neg hc] at h
    cases h

theorem spaced_append {tMin : Nat} {ps : List Pulse} {p : Pulse} (h : spaced tMin ps = true)
    (hl : ∀ q ∈ ps.getLast?, q.time + tMin ≤ p.time) : spaced tMin (ps ++ [p]) = true := by
  induction ps using spaced.induct with
  | case1 p q ps ih =>
    simp only [spaced, Bool.and_eq_true, decide_eq_true_eq] at h
    simp only [List.cons_append, spaced, Bool.and_eq_true, decide_eq_true_eq]
    exact ⟨h.1, ih h.2 (by simpa [List.getLast?_cons_cons] using hl)⟩
  | case2 ps hne =>
    match ps, hne with
    | [], _ => rfl
    | [q], _ => simpa [spaced] using hl
    | q :: r :: rs, hne => exact absurd rfl (hne q r rs)

end Sys2Proof.Machine
end

