-- ==== Sys2Proof/Laws/Plan.lean ====
section
/-! SUPPORT. Plans as a whole: what the micro-operations of a plan do when they are performed one after the other, what that
depends on, and the schedule a block runs under. -/

namespace Sys2Proof.Machine

theorem performAll_cons (op : MicroOp) (ops : List MicroOp) (s : State) :
    performAll (op :: ops) s = performAll ops (s.perform op) := rfl

theorem performAll_append (a b : List MicroOp) (s : State) :
    performAll (a ++ b) s = performAll b (performAll a s) := by
  simp [performAll, List.foldl_append]

/-- What a micro-operation does to the joints and to `motors_off` depends on these and the configuration alone (R86, R103). -/
theorem State.perform_congr {s t : State} (op : MicroOp) (hc : t.cfg = s.cfg) (hj : t.joints = s.joints)
    (hm : t.motorsOff = s.motorsOff) :
    (t.perform op).cfg = (s.perform op).cfg ∧ (t.perform op).joints = (s.perform op).joints ∧
      (t.perform op).motorsOff = (s.perform op).motorsOff := by
  refine ⟨by rw [(t.perform_frame op).1, (s.perform_frame op).1, hc], ?_, ?_⟩
  · cases op with
    | stepOp i d =>
      simp only [State.perform, State.stepOp_joints, State.advance_joints, State.phase, State.pos, State.posWidth, hc, hj]
    | strobeOp i on => simp only [State.perform, State.strobeOp_eq_pulse, State.pulse_joints, hj]
    | setOff b => simp only [State.perform, State.setOff_joints, hj]
  · cases op with
    | stepOp i d => exact hm
    | strobeOp i on => simpa only [State.perform, State.strobeOp_eq_pulse, State.pulse_motorsOff] using hm
    | setOff b => rfl

theorem performAll_congr {s t : State} (plan : List MicroOp) (hc : t.cfg = s.cfg) (hj : t.joints = s.joints)
    (hm : t.motorsOff = s.motorsOff) :
    (performAll plan t).joints = (performAll plan s).joints ∧ (performAll plan t).motorsOff = (performAll plan s).motorsOff := by
  induction plan generalizing s t with
  | nil => exact ⟨hj, hm⟩
  | cons op ops ih =>
    obtain ⟨h1, h2, h3⟩ := State.perform_congr op hc hj hm
    exact ih h1 h2 h3

/-- The bytes a plan pulses depend on the configuration and the joints alone (R85, R87). -/
theorem planBytes_congr (plan : List MicroOp) {s t : State} (hc : t.cfg = s.cfg) (hj : t.joints = s.joints) :
    planBytes plan t = planBytes plan s := by
  induction plan generalizing s t with
  | nil => rfl
  | cons op ops ih =>
    cases op with
    | stepOp j d =>
      have e : (t.advance j d).joints = (s.advance j d).joints := by
        simp only [State.advance_joints, State.phase, State.pos, State.posWidth, hc, hj]
      simp only [planBytes]
      rw [ih (s := s.advance j d) (t := t.advance j d) hc e]
      simp only [State.stepByte, State.addr, State.phasePattern, State.phase, State.advance_cfg, e, hc]
    | strobeOp j on =>
      simp only [planBytes]
      rw [ih hc hj]
      simp only [State.stepByte, State.addr, State.phasePattern, State.phase, hc, hj]
    | setOff b => exact ih hc (by simp only [State.setOff_joints, hj])

theorem planBytes_cons (op : MicroOp) (ops : List MicroOp) (s : State) :
    planBytes (op :: ops) s = planBytes [op] s ++ planBytes ops (s.perform op) := by
  cases op with
  | stepOp j d =>
    simp only [planBytes, List.singleton_append]
    congr 1
    exact planBytes_congr ops rfl rfl
  | strobeOp j on =>
    simp only [planBytes, List.singleton_append]
    congr 1
    apply planBytes_congr <;> simp [State.perform, State.strobeOp_eq_pulse]
  | setOff b => rfl

/-- The byte a micro-operation pulses, if it pulses one, is the byte `planBytes` names (R83). -/
theorem State.perform_planBytes (s : State) (op : MicroOp) :
    (op.isPulse = true ∧ ∃ b, planBytes [op] s = [b] ∧ (s.perform op).bus = some b ∧ (s.perform op).last = s.now ∧
      (s.perform op).portLog = s.portLog ++ (⟨s.now, b⟩ : Pulse).writes) ∨
    (op.isPulse = false ∧ planBytes [op] s = [] ∧ (s.perform op).bus = s.bus ∧ (s.perform op).last = s.last ∧
      (s.perform op).portLog = s.portLog) := by
  cases op with
  | stepOp j d => exact .inl ⟨rfl, _, rfl, rfl, rfl, by simp [State.perform, Pulse.writes]⟩
  | strobeOp j on =>
    refine .inl ⟨rfl, s.strobeByte j on, rfl, ?_, ?_, ?_⟩ <;> simp [State.perform, State.strobeOp_eq_pulse, Pulse.writes]
  | setOff b => exact .inr ⟨rfl, rfl, rfl, rfl, rfl⟩

/-- The phase after a plan: the phase before it and the net number of steps, modulo 4 (R86). -/
theorem performAll_phase (plan : List MicroOp) (s : State) (j : JointIdx) :
    (((performAll plan s).phase j).val : Int) = ((s.phase j).val + netSteps j plan) % 4 := by
  have one : ∀ (p : PhaseIdx) (d : Dir), ((advancePhase p d).val : Int) = (p.val + d.delta) % 4 := by
    intro p d
    revert p
    cases d <;> decide
  induction plan generalizing s with
  | nil =>
    have := (s.phase j).isLt
    simp only [performAll, List.foldl_nil, netSteps]
    omega
  | cons op ops ih =>
    rw [performAll_cons, ih]
    cases op with
    | stepOp i d =>
      rw [State.perform, State.stepOp_phase, netSteps]
      split
      · rename_i e
        subst e
        rw [one]
        omega
      · simp
    | strobeOp i on => rw [State.perform, State.strobeOp_eq_pulse]; rfl
    | setOff b => rw [State.perform, State.setOff_phase]; rfl

/-! Schedules. -/

/-- A scheduled move is the next one. -/
theorem State.nextMove_of_agenda {s : State} {m : Move} {ms : List Move} (h : s.agenda = m :: ms) : s.nextMove = m := by
  unfold State.nextMove
  rw [h]

/-- A step of a state that has a move scheduled makes that move (R146). -/
theorem step_of_agenda {s : State} {m : Move} {ms : List Move} (h : s.agenda = m :: ms) :
    step s = ({ s with agenda := ms }).makeMove m := by
  unfold step State.afterChoice State.nextMove
  rw [h]

/-- A run of `n + 1` steps is a step and a run of `n`. -/
theorem run_succ {s t : State} (n : Nat) (h : step s = .next t) : Sys2Proof.core.run (n + 1) s = Sys2Proof.core.run n t := by
  have key : ∀ (M : Host.Core) (a b : M.State), M.step a = .next b → M.run (n + 1) a = M.run n b := by
    intro M a b hab
    rw [Host.Core.run, hab]
  exact key Sys2Proof.core s t h

/-! Endless schedules. -/

/-- A tick of an endless schedule lets that much time pass (R144). -/
theorem afterMoves_tick {f : Nat → Move} (s : State) (n : Nat) {delta : Nat} (h : f n = .tick delta) :
    afterMoves f s (n + 1) = (afterMoves f s n).advanceTime delta := by
  rw [afterMoves, h]
  rfl

/-- A sequencer's turn of an endless schedule is the sequencer's turn (R88). -/
theorem afterMoves_turn {f : Nat → Move} (s : State) (n : Nat) (h : f n = .sequencer) :
    afterMoves f s (n + 1) = (afterMoves f s n).sequencerTurn := by
  rw [afterMoves, h]
  rfl

/-- What waits on the port is a command exactly when the decoder reads one from it (R77). -/
theorem State.commandWaits_iff (s : State) :
    s.commandWaits = true ↔ ∃ i rest, decodeWords s.commandPort = .command i rest := by
  unfold State.commandWaits
  split <;> simp_all

/-- A command that begins Idle has no step to wait for. -/
theorem BusySteps.eq_of_idle {s t : State} (h : BusySteps s t) (hs : s.seq = .idle) : t = s := by
  induction h with
  | refl => rfl
  | tail _ busy _ _ ih =>
    subst ih
    rw [hs] at busy
    cases busy

end Sys2Proof.Machine
end

