-- ==== Sys2Proof/Tests/Slice0.lean ====
section
/-! SUPPORT. Tests of the model's own work: ill-formed terms refused, words written out from the spec's encodings, single steps
with the results of spec/95_test_vectors.md, and for every obligation with hypotheses a witness that meets them (`test_hyp_…`). -/

open Sys2Proof Sys2Proof.Machine

namespace Sys2Proof.Tests

/-! ### Small states -/

/-- `S0` of 95_test_vectors.md: REF, reset at time 0. -/
def s0 : State := State.boot Config.ref 0 [] [] 0

/-- A word as its four bytes, most significant first, the way R62 to R67 print the patterns. -/
def bits (a b c d : Byte) : Word := a ++ b ++ c ++ d

/-- `S0` Busy with a plan, at time `t`. -/
def busyAt (t : Nat) (k : Kind) (plan : List MicroOp) : State :=
  { s0 with seq := .busy k plan, status := 0x80, now := t }

/-- `S0` with the motors off. -/
def offState : State := State.setOff true s0

/-- The state with these moves scheduled. -/
def sched (ms : List Move) (s : State) : State := { s with agenda := ms }

/-- The state after one step, if the step answers next. -/
def nextOf (s : State) : State :=
  match step s with
  | .next t => t
  | .fault _ => s
  | .refused _ => s

/-- The state a command's acceptance leaves. -/
def accepted (i : Instr) (s : State) : State :=
  match exec i s with
  | .next t => t
  | .fault _ => s
  | .refused _ => s

/-- The state after `n` steps. -/
def after : Nat → State → State
  | 0, s => s
  | n + 1, s => nextOf (after n s)

/-- The step answers next. -/
def goes (s : State) : Bool :=
  match step s with
  | .next _ => true
  | .fault _ => false
  | .refused _ => false

theorem step_nextOf {s : State} (h : goes s = true) : step s = .next (nextOf s) := by
  unfold goes at h
  unfold nextOf
  split at h <;> simp_all

/-- Each of `n` steps answers next. -/
def goesFor : Nat → State → Bool
  | 0, _ => true
  | n + 1, s => goesFor n s && goes (after n s)

/-- Each of `n` steps is a step of a Busy block, and no reset. -/
def busyFor : Nat → State → Bool
  | 0, _ => true
  | n + 1, s => busyFor n s && (after n s).seq.isBusy && decide ((after n s).nextMove ≠ .reset) && goes (after n s)

theorem steps_after (n : Nat) (s : State) (h : goesFor n s = true) : Steps s (after n s) := by
  induction n with
  | zero => exact .refl s
  | succ n ih =>
    simp only [goesFor, Bool.and_eq_true] at h
    exact .tail (ih h.1) (step_nextOf h.2)

theorem busySteps_after (n : Nat) (s : State) (h : busyFor n s = true) : BusySteps s (after n s) := by
  induction n with
  | zero => exact .refl s
  | succ n ih =>
    simp only [busyFor, Bool.and_eq_true, decide_eq_true_eq] at h
    exact .tail (ih h.1.1.1) h.1.1.2 h.1.2 (step_nextOf h.2)

/-! ### Ill-formed terms are refused (R9, R10, R11, R64, R70) -/

theorem test_wf_refuses_256_indices : (Instr.driveMulti (List.replicate 256 0) []).wf = false := by
  simp only [Instr.wf, countFits, List.length_replicate]
  decide
theorem test_wf_refuses_256_counts : (Instr.driveMulti [] (List.replicate 256 0)).wf = false := by
  simp only [Instr.wf, countFits, List.length_replicate]
  decide
theorem test_wf_refuses_legal_header_as_illegal :
    (Instr.illegal 0x01000000).wf = false ∧ (Instr.illegal 0x02000000).wf = false ∧ (Instr.illegal 0x0300FFFF).wf = false ∧
    (Instr.illegal 0x04000001).wf = false ∧ (Instr.illegal 0x05000000).wf = false := by decide
theorem test_wf_accepts_255_and_255 : (Instr.driveMulti (List.replicate 255 0) (List.replicate 255 0)).wf = true := by
  simp only [Instr.wf, countFits, List.length_replicate]
  decide

theorem test_config_refuses_address_bit_0 :
    Config.build { Params.ref with addr := #v[0x21, 0x40, 0x60, 0x80, 0xA0, 0xC0] } = .error .addrBitZeroSet := by decide
theorem test_config_refuses_repeated_address :
    Config.build { Params.ref with addr := #v[0x20, 0x40, 0x60, 0x80, 0xA0, 0x20] } = .error .addrRepeated := by decide
theorem test_config_refuses_phase_bit_0 :
    Config.build { Params.ref with phase := #v[0x06, 0x0C, 0x18, 0x13] } = .error .phaseBitZeroSet := by decide
theorem test_config_refuses_one_bit_position :
    Config.build { Params.ref with posWidth := .bits 1 } = .error .posWidthTooSmall := by decide
theorem test_config_refuses_tick_of_no_length :
    Config.build { Params.ref with tick := 0 } = .error .tickNotPositive := by decide
theorem test_config_accepts_ref : Config.build Params.ref = .ok Config.ref := by decide

/-! ### Decoding, from the patterns of R62 to R67 and the words of R78 and V-X1 to V-X10 -/

theorem test_decode_step :
    decodeWords [bits 0b00000001 0b00000000 0b00000000 0b00000000, bits 0b00000000 0b00000000 0b00000000 0b00000110,
      bits 0b00000000 0b00000000 0b00000000 0b00000001] = .command (.step 6 1) [] := by decide
theorem test_decode_drive :
    decodeWords [bits 0b00000010 0b00000000 0b00000000 0b00000000, bits 0b00000000 0b00000000 0b00000000 0b00000010,
      bits 0b11111111 0b11111111 0b11111111 0b11111011, bits 0b00000000 0b00000000 0b00000000 0b00000001] =
      .command (.drive 2 0xFFFFFFFB 1) [] := by decide
theorem test_decode_drive_multi :
    decodeWords [bits 0b00000011 0b00000000 0b00000010 0b00000001, 0, 1, 2, 7] = .command (.driveMulti [0, 1] [2]) [7] := by
  decide
theorem test_decode_set_energized :
    decodeWords [bits 0b00000100 0b00000000 0b00000000 0b00000000] = .command (.setEnergized false) [] ∧
    decodeWords [bits 0b00000100 0b00000000 0b00000000 0b00000001] = .command (.setEnergized true) [] := by decide
theorem test_decode_address_of :
    decodeWords [bits 0b00000101 0b00000000 0b00000000 0b00000000, bits 0b00000000 0b00000000 0b00000000 0b00000011] =
      .command (.addressOf 3) [] := by decide
theorem test_decode_illegal :
    decodeWords [bits 0b00000100 0b00000000 0b00000000 0b00000010, 9] = .command (.illegal 0x04000002) [9] ∧
    decodeWords [bits 0b00000001 0b00000000 0b00000000 0b00000001, 9] = .command (.illegal 0x01000001) [9] ∧
    decodeWords [bits 0b00000011 0b00000001 0b00000000 0b00000000, 9] = .command (.illegal 0x03010000) [9] ∧
    decodeWords [0, 9] = .command (.illegal 0) [9] := by decide

theorem test_command_lengths :
    [0x01000000, 0x02000000, 0x03000305, 0x0300FFFF, 0x03010000, 0x04000001, 0x05000000, 0x01000001, 0x00000000, 0x06000000,
      0xFF000000].map commandLength = [3, 4, 9, 511, 1, 1, 2, 1, 1, 1, 1] := by decide

theorem test_decode_bytes_little_endian :
    decodeBytes [0x00, 0x00, 0x00, 0x05, 0x03, 0x00, 0x00, 0x00] = .command (.addressOf 3) [] ∧
    decodeBytes [0x00, 0x00, 0x00, 0x05, 0x03, 0x00, 0x00] = .rejected .partialCommand ∧
    decodeBytes [0x00, 0x00, 0x00] = .rejected .noHeader := by decide

/-- No header belongs to two rows: the bits both rows fix differ. -/
theorem test_opcode_rows_do_not_overlap :
    opcodeRows.Pairwise fun r t => (r.value ^^^ t.value) &&& r.mask &&& t.mask ≠ 0 := by decide

/-- The rows of spec/opcode_table.json, read as its numbering asks. -/
theorem test_decode_table_words :
    decodeTableWord 32 0x01000000 = some (.step 0 0) ∧
    decodeTableWord 32 0x02000000 = some (.drive 0 0 0) ∧
    decodeTableWord 32 0x03000102 = some (.driveMulti [0] [0, 0]) ∧
    decodeTableWord 32 0x04000001 = some (.setEnergized true) ∧
    decodeTableWord 64 0x0000000305000000 = some (.addressOf 3) ∧
    decodeTableWord 32 0x06000000 = some (.illegal 0x06000000) := by decide

theorem test_step_runs_first_fetch_word :
    step (State.reset.withFetchWord 64 0x0000000305000000) = exec (.addressOf 3) State.reset := rfl

/-! ### Single steps, with the results of 95_test_vectors.md -/

/-- V-S6, V-S5, V-S7: the first diagnostic of STEP. -/
theorem test_step_diagnostics :
    (accepted (.step 6 2) s0).status = 0x01 ∧ (accepted (.step 0 2) s0).status = 0x02 ∧
    (accepted (.step 0 0) offState).status = 0x05 := by decide

/-- V-S3: joint 3 from phase 3 wraps to 0. -/
theorem test_step_op_wraps_forward :
    let s := nextOf (sched [.sequencer]
      { busyAt 50 .step [.stepOp 3 .forward] with
        joints := s0.joints.set 3 { phaseIndex := 3, positionCount := 3, energized := true }, last := 40 })
    s.phase 3 = 0 ∧ s.pos 3 = 4 ∧ s.last = 50 ∧ s.portLog = [(50, 0x87), (50, 0x86)] := by decide

/-- V-D7, V-D3, V-D8: direction before count, count before the motors. -/
theorem test_drive_diagnostics :
    (accepted (.drive 0 0xFFFFFFFF 2) s0).status = 0x02 ∧ (accepted (.drive 0 0 0) s0).status = 0x03 ∧
    (accepted (.drive 0 0 0) offState).status = 0x03 ∧ (accepted (.drive 0 1 0) offState).status = 0x05 := by decide

/-- V-D1: the first pulse, 73 and 72 at 10. -/
theorem test_drive_first_pulse :
    let s := nextOf (sched [.sequencer] { accepted (.drive 2 3 1) s0 with now := 10 })
    s.phase 2 = 3 ∧ s.pos 2 = -1 ∧ s.portLog = [(10, 0x73), (10, 0x72)] ∧
      s.seq = .busy .drive [.stepOp 2 .backward, .stepOp 2 .backward] := by decide

/-- V-M1: three rounds. -/
theorem test_drive_multi_rounds :
    (accepted (.driveMulti [0, 1] [2, 0xFFFFFFFD]) s0).seq =
      .busy .driveMulti [.stepOp 0 .forward, .stepOp 1 .backward, .stepOp 0 .forward, .stepOp 1 .backward,
        .stepOp 1 .backward] := by decide

/-- V-M3, V-M4, V-M5, V-M6, V-M11. -/
theorem test_drive_multi_at_once :
    (accepted (.driveMulti [] []) s0) = s0 ∧ (accepted (.driveMulti [3] [0]) s0).status = 0x00 ∧
    (accepted (.driveMulti [0, 6] [1, 1]) s0).status = 0x01 ∧ (accepted (.driveMulti [0, 1] [1]) offState).status = 0x04 ∧
    (accepted (.driveMulti [0] [0]) offState).status = 0x05 := by decide

/-- V-E1: the first pulse of a de-energize has the address bits only, before the flags change. -/
theorem test_set_energized_first_pulse :
    let s := nextOf (sched [.sequencer] { accepted (.setEnergized false) s0 with now := 10 })
    s.portLog = [(10, 0x21), (10, 0x20)] ∧ s.motorsOff = false ∧ s.last = 10 := by decide

/-- V-E1, the end: SetOff waits for no gate. -/
theorem test_set_energized_flags :
    let s := nextOf (sched [.sequencer] (busyAt 0 .setEnergized [.setOff true]))
    s.motorsOff = true ∧ s.energized 5 = false ∧ s.portLog = [] ∧ s.seq = .busy .setEnergized [] := by decide

/-- V-A2, V-A4, V-A5. -/
theorem test_address_of :
    (accepted (.addressOf 5) s0).data = 0xC0 ∧ (accepted (.addressOf 0xFFFFFFFF) s0).status = 0x01 ∧
    (accepted (.addressOf 2) offState).data = 0x60 ∧ (accepted (.addressOf 2) offState).motorsOff = true := by decide

/-- V-E6. -/
theorem test_illegal : accepted (.illegal 0x04000002) s0 = { s0 with status := 0x06 } := by decide

/-- V-RS1: reset at 57 keeps the history. -/
theorem test_reset :
    let s := nextOf (sched [.reset] { busyAt 57 .drive [.stepOp 0 .forward] with portLog := [(50, 0x4D), (50, 0x4C)] })
    s.seq = .idle ∧ s.last = 57 ∧ s.status = 0x00 ∧ s.portLog = [(50, 0x4D), (50, 0x4C)] := by decide

/-- R23: a finite counter wraps in two's complement. -/
theorem test_position_wraps : wrapPosition (.bits 4) 8 = -8 ∧ wrapPosition (.bits 4) (-9) = 7 ∧
    wrapPosition .unbounded 8 = 8 := by decide

/-- R75, R76. -/
theorem test_assembler :
    assembleLine "DRIVE       0, -5, 0        ; comment".toList = some [0x02000000, 0, 0xFFFFFFFB, 0] ∧
    assembleLine "MOVE 3, -2147483648".toList = some [0x03000101, 3, 0x80000000] ∧
    assembleLine "STEP 0".toList = none ∧ assembleLine "SET_ENERGIZED 2".toList = none := by decide

/-! ### Witnesses: for each obligation with hypotheses, states and operands that meet them, at the ends of their ranges -/

/-- One well-formed instruction of each constructor, the longest DRIVE_MULTI and an empty one among them. -/
theorem test_hyp_DecodeEncodeRoundTrip :
    (Instr.step 6 2).wf = true ∧ (Instr.drive 0xFFFFFFFF 0 0).wf = true ∧ (Instr.driveMulti [] []).wf = true ∧
    (Instr.driveMulti (List.replicate 255 0) (List.replicate 255 0)).wf = true ∧ (Instr.setEnergized true).wf = true ∧
    (Instr.addressOf 5).wf = true ∧ (Instr.illegal 0x04000002).wf = true :=
  ⟨rfl, rfl, rfl, test_wf_accepts_255_and_255, rfl, rfl, by decide⟩

theorem test_hyp_DecodedWordsReencode :
    decodeWords [0x05000000, 0x00000003, 0x04000000] = .command (.addressOf 3) [0x04000000] := by decide

theorem test_hyp_CommandLengthCountsWords : (Instr.driveMulti [0, 1] [2]).wf = true := by decide

theorem test_hyp_IllegalHeaderIsOneWordCommand :
    legalHeader 0x06000000 = false ∧ legalHeader 0x00000000 = false ∧ legalHeader 0x04000002 = false ∧ s0.seq = .idle := by
  decide

/-- A header for each way to be illegal: the lowest and the highest reserved bit of each format, and the opcodes of no row. -/
theorem test_hyp_ReservedBitsMakeHeaderIllegal :
    ((0x01000001 : Word).extractLsb' 24 8 = 0x01 ∧ (0x01000001 : Word).extractLsb' 0 24 ≠ 0) ∧
    ((0x02800000 : Word).extractLsb' 24 8 = 0x02 ∧ (0x02800000 : Word).extractLsb' 0 24 ≠ 0) ∧
    ((0x05000001 : Word).extractLsb' 24 8 = 0x05 ∧ (0x05000001 : Word).extractLsb' 0 24 ≠ 0) ∧
    ((0x03010000 : Word).extractLsb' 24 8 = 0x03 ∧ (0x03010000 : Word).extractLsb' 16 8 ≠ 0) ∧
    ((0x04000002 : Word).extractLsb' 24 8 = 0x04 ∧ (0x04000002 : Word).extractLsb' 1 23 ≠ 0) ∧
    (0x00FFFFFF : Word).extractLsb' 24 8 = 0x00 ∧ 0x06 ≤ ((0x06000000 : Word).extractLsb' 24 8).toNat ∧
    0x06 ≤ ((0xFF000000 : Word).extractLsb' 24 8).toNat := by decide

theorem test_hyp_LittleEndianTransport : s0.partialWord = [] := rfl

/-- R44: the four bytes of the header 05000000, as they arrive. -/
theorem test_bytes_of_header : bytesOfWord 0x05000000 = [0x00, 0x00, 0x00, 0x05] := by decide

theorem test_hyp_PartialCommandWaits :
    (Instr.step 0 0).wf = true ∧ 2 < (encode (.step 0 0)).length ∧
    (sched [.accept] { s0 with commandPort := [0x01000000, 0x00000000] }).nextMove = .accept ∧
    decodeWords [0x01000000, 0x00000000] = .rejected .partialCommand ∧ decodeWords [] = .rejected .noHeader := by decide

/-- Both sides of the first equivalence hold for REF, with the smallest finite counter and tick too; both sides of the second for
REF with the largest illegal counter, and with a tick of no length. -/
theorem test_hyp_ConfigurationsAreChecked :
    Params.ref.wf = true ∧ ({ Params.ref with posWidth := .bits 2, tMin := 0, tick := 1 } : Params).wf = true ∧
    ({ Params.ref with posWidth := .bits 1 } : Params).wf = false ∧ ({ Params.ref with tick := 0 } : Params).wf = false := by decide

/-- The first and the last joint, both directions. -/
theorem test_hyp_StepPlansOneStepOp :
    s0.seq = .idle ∧ s0.motorsOff = false ∧ (0 : Word).toNat = (0 : JointIdx).val ∧ (5 : Word).toNat = (5 : JointIdx).val ∧
    (0 : Word).toNat = dirCode .forward ∧ (1 : Word).toNat = dirCode .backward := by decide

/-- The ends of the range of a step count (R12, R59). -/
theorem test_step_count_ends : 0 < (0x7FFFFFFF : Word).toInt ∧ (0x80000000 : Word).toInt ≤ 0 ∧ (0x80000000 : Word).toInt ≠ 0 := by
  simp [BitVec.toInt]

/-- The smallest and the largest count. -/
theorem test_hyp_DrivePlansItsSteps :
    s0.seq = .idle ∧ s0.motorsOff = false ∧ (5 : Word).toNat = (5 : JointIdx).val ∧ (1 : Word).toNat = dirCode .backward ∧
    0 < (1 : Word).toInt ∧ 0 < (0x7FFFFFFF : Word).toInt :=
  ⟨rfl, rfl, rfl, rfl, by decide, test_step_count_ends.1⟩

theorem test_hyp_DriveMultiPlansItsRounds :
    s0.seq = .idle ∧ s0.motorsOff = false ∧
    ([0, 5] : List Word).map BitVec.toNat = ([0, 5] : List JointIdx).map Fin.val ∧
    ([0, 5] : List Word).length = ([0, 0x80000000] : List Word).length ∧
    (∃ w ∈ ([0, 0x80000000] : List Word), w.toInt ≠ 0) :=
  ⟨rfl, rfl, rfl, rfl, 0x80000000, by decide, test_step_count_ends.2.2⟩

theorem test_hyp_DriveMultiOfNothingCompletes :
    s0.seq = .idle ∧ s0.motorsOff = false ∧ (∀ j ∈ ([0, 5] : List Word), j.toNat ≤ 5) ∧
    ([0, 5] : List Word).length = ([0, 0] : List Word).length ∧ (∀ w ∈ ([0, 0] : List Word), w.toInt = 0) :=
  ⟨rfl, rfl, by simp, rfl, by simp⟩

theorem test_hyp_MultiPlanIsRoundByRound : ([(0, 2), (5, -3)] : List Lane) ≠ [] := by decide

theorem test_hyp_SetEnergizedPlansSixPulses : s0.seq = .idle ∧ offState.seq = .idle := by decide

theorem test_hyp_AddressOfAnswers :
    s0.seq = .idle ∧ (0 : Word).toNat = (0 : JointIdx).val ∧ (5 : Word).toNat = (5 : JointIdx).val ∧ 5 < (6 : Word).toNat ∧
    5 < (0xFFFFFFFF : Word).toNat := by decide

/-- Each clause at the first value past its range, and the states the checks of `motors_off` ask for. -/
theorem test_hyp_FirstDiagnosticIsReported :
    s0.seq = .idle ∧ s0.motorsOff = false ∧ offState.seq = .idle ∧ offState.motorsOff = true ∧ 5 < (6 : Word).toNat ∧ (5 : Word).toNat ≤ 5 ∧
    1 < (2 : Word).toNat ∧ (1 : Word).toNat ≤ 1 ∧ (0 : Word).toInt ≤ 0 ∧
    0 < (1 : Word).toInt ∧ ([0, 1] : List Word).length ≠ ([5] : List Word).length ∧
    ([0, 6] : List Word).length = ([1, 1] : List Word).length ∧ (∃ w ∈ ([0, 6] : List Word), 5 < w.toNat) ∧
    (∀ w ∈ ([0, 5] : List Word), w.toNat ≤ 5) :=
  ⟨rfl, rfl, rfl, rfl, by decide, by decide, by decide, by decide, by decide, by decide, by decide, rfl, ⟨6, by simp⟩, by simp⟩

/-- A command that ends in a diagnostic on an Idle block. -/
theorem test_hyp_AcceptanceMovesNothing :
    s0.seq = .idle ∧ exec (.step 6 0) s0 = .next (accepted (.step 6 0) s0) ∧
    (accepted (.step 6 0) s0).status ∈ ([0x01, 0x02, 0x03, 0x04, 0x05, 0x06] : List Byte) := ⟨rfl, rfl, by decide⟩

theorem test_hyp_BusyBlockAcceptsNothing :
    (sched [.accept] (busyAt 0 .step [.stepOp 0 .forward])).seq = .busy .step [.stepOp 0 .forward] ∧
    (sched [.accept] (busyAt 0 .step [.stepOp 0 .forward])).nextMove = .accept := by decide

/-- `S0` with another address for joint 0. -/
def readdressed : State :=
  { s0 with cfg := ⟨{ Params.ref with addr := #v[0x10, 0x40, 0x60, 0x80, 0xA0, 0xC0] }, by decide⟩ }

/-- For a command that is not ADDRESS_OF, two Idle blocks that differ in an address; for ADDRESS_OF, two that differ in a joint. -/
theorem test_hyp_ValidationReadsOnlyMotorsOff :
    s0.seq = .idle ∧ readdressed.seq = .idle ∧ s0.motorsOff = readdressed.motorsOff ∧ (¬ ∃ j, Instr.step 0 0 = .addressOf j) ∧
    s0.cfg.params.addr ≠ readdressed.cfg.params.addr ∧ exec (.step 0 0) s0 = .next (accepted (.step 0 0) s0) ∧
    exec (.step 0 0) readdressed = .next (accepted (.step 0 0) readdressed) ∧
    (s0.advance 0 .forward).seq = .idle ∧ s0.motorsOff = (s0.advance 0 .forward).motorsOff ∧
    s0.cfg.params.addr = (s0.advance 0 .forward).cfg.params.addr ∧
    exec (.addressOf 5) s0 = .next (accepted (.addressOf 5) s0) ∧
    exec (.addressOf 5) (s0.advance 0 .forward) = .next (accepted (.addressOf 5) (s0.advance 0 .forward)) :=
  ⟨rfl, rfl, rfl, (fun h => by obtain ⟨_, h⟩ := h; cases h), by decide, rfl, rfl, rfl, rfl, rfl, rfl, rfl⟩

theorem test_hyp_StepRunsDecodedInstruction :
    (sched [.accept] { s0 with commandPort := [0x05000000, 3, 0x04000000] }).nextMove = .accept ∧ s0.seq = .idle ∧
    decodeWords [0x05000000, 3, 0x04000000] = .command (.addressOf 3) [0x04000000] := by decide

/-- Two whole commands on the port, and an acceptance. -/
theorem test_hyp_WholeCommandsStayWhole :
    let s := sched [.accept] { s0 with commandPort := [0x05000000, 3, 0x04000000] }
    WholeCommands s.commandPort ∧ step s = .next (nextOf s) ∧ (∀ ws, s.nextMove ≠ .present ws) ∧
    (∀ b, s.nextMove ≠ .presentByte b) :=
  ⟨⟨[.addressOf 3, .setEnergized false], by simp [Instr.wf], rfl⟩, rfl, (fun _ h => by cases h), (fun _ h => by cases h)⟩

/-- The gate just open. -/
theorem test_hyp_StepOpTransition :
    (sched [.sequencer] (busyAt 10 .step [.stepOp 0 .forward])).nextMove = .sequencer ∧
    (busyAt 10 .step [.stepOp 0 .forward]).seq = .busy .step [.stepOp 0 .forward] ∧
    (busyAt 10 .step [.stepOp 0 .forward]).last + (busyAt 10 .step [.stepOp 0 .forward]).tMin ≤ 10 := by decide

theorem test_hyp_StrobeOpTransition :
    (sched [.sequencer] (busyAt 10 .setEnergized [.strobeOp 5 true])).nextMove = .sequencer ∧
    (busyAt 10 .setEnergized [.strobeOp 5 true]).seq = .busy .setEnergized [.strobeOp 5 true] ∧
    (busyAt 10 .setEnergized [.strobeOp 5 true]).last + (busyAt 10 .setEnergized [.strobeOp 5 true]).tMin ≤ 10 ∧
    (0xC6 : Byte) = s0.addr 5 ||| s0.phasePattern (s0.phase 5) ∧ (0xC0 : Byte) = s0.addr 5 := by decide

theorem test_hyp_SetOffTransition :
    (sched [.sequencer] (busyAt 0 .setEnergized [.setOff true])).nextMove = .sequencer ∧
    (busyAt 0 .setEnergized [.setOff true]).seq = .busy .setEnergized [.setOff true] := by decide

/-- The gate closed by one tick. -/
theorem test_hyp_ClosedGateHolds :
    (sched [.sequencer] (busyAt 9 .step [.stepOp 0 .forward])).nextMove = .sequencer ∧
    (busyAt 9 .step [.stepOp 0 .forward]).seq = .busy .step [.stepOp 0 .forward] ∧
    (∀ b, MicroOp.stepOp 0 .forward ≠ .setOff b) ∧
    9 < (busyAt 9 .step [.stepOp 0 .forward]).last + (busyAt 9 .step [.stepOp 0 .forward]).tMin := by decide

theorem test_hyp_CompletionTransition :
    (sched [.sequencer] (busyAt 10 .drive [])).nextMove = .sequencer ∧ (busyAt 10 .drive []).seq = .busy .drive [] := by decide

theorem test_hyp_ResetTransition : (sched [.reset] (busyAt 57 .drive [.stepOp 0 .forward])).nextMove = .reset := by decide

theorem test_hyp_ResetLeavesFresh :
    (sched [.reset] s0).nextMove = .reset ∧ step (sched [.reset] s0) = .next (nextOf (sched [.reset] s0)) := ⟨rfl, rfl⟩

theorem test_hyp_FinalStatesStayObserved :
    final (sched [.tick 3] s0) = true ∧ step (sched [.tick 3] s0) = .next (nextOf (sched [.tick 3] s0)) ∧
    (sched [.tick 3] s0).nextMove ≠ .reset := ⟨rfl, rfl, by decide⟩

/-- R129 with R45 and R77: a part of a command, or of a word, ends no run's end; a whole command, an illegal header too, does, and
so does a busy block. -/
theorem test_final_states :
    final { s0 with commandPort := [0x01000000, 0x00000000] } = true ∧ final { s0 with partialWord := [0x00, 0x00] } = true ∧
    final { s0 with commandPort := [0x04000000] } = false ∧ final { s0 with commandPort := [0x06000000] } = false ∧
    final (busyAt 0 .step []) = false := by decide

theorem test_hyp_OnlyTicksChangeTime :
    step (sched [.tick 1] s0) = .next (nextOf (sched [.tick 1] s0)) ∧ (sched [.tick 1] s0).nextMove = .tick 1 ∧
    step (sched [.reset] s0) = .next (nextOf (sched [.reset] s0)) ∧ (∀ delta, (sched [.reset] s0).nextMove ≠ .tick delta) :=
  ⟨rfl, rfl, rfl, fun _ h => by cases h⟩

theorem test_hyp_DisabledMovesChangeNothing :
    (sched [.sequencer] (busyAt 9 .step [.stepOp 0 .forward])).afterChoice.enabled .sequencer = false ∧
    (sched [.accept] s0).afterChoice.enabled .accept = false ∧ (sched [.tick 0] s0).afterChoice.enabled (.tick 0) = false := by
  decide

theorem test_hyp_ConfigurationIsNeverWritten : Steps (sched [.reset] s0) (after 1 (sched [.reset] s0)) :=
  steps_after 1 _ (by decide)

/-- A step that moves a joint. -/
theorem test_hyp_OnlyStepOpsMoveJoints :
    let s := sched [.sequencer] (busyAt 10 .step [.stepOp 0 .forward])
    step s = .next (nextOf s) ∧ (nextOf s).phase 0 ≠ s.phase 0 := ⟨rfl, by decide⟩

theorem test_hyp_OnlySetOffWritesFlags :
    let s := sched [.sequencer] (busyAt 0 .setEnergized [.setOff true])
    step s = .next (nextOf s) ∧ (nextOf s).motorsOff ≠ s.motorsOff := ⟨rfl, by decide⟩

theorem test_hyp_OnlyPulsesWriteLast :
    let s := sched [.sequencer] (busyAt 10 .step [.stepOp 0 .forward])
    step s = .next (nextOf s) ∧ (nextOf s).last ≠ s.last := ⟨rfl, by decide⟩

theorem test_hyp_PortChangesOnlyByWholePulses :
    let s := sched [.sequencer] (busyAt 10 .step [.stepOp 0 .forward])
    step s = .next (nextOf s) ∧ (nextOf s).portLog ≠ s.portLog := ⟨rfl, by decide⟩

theorem test_hyp_PlansOnlyShrink :
    let s := sched [.sequencer] (busyAt 10 .step [.stepOp 0 .forward])
    s.seq = .busy .step [.stepOp 0 .forward] ∧ step s = .next (nextOf s) := ⟨rfl, rfl⟩

/-- A fresh state has the invariant, and a step leads on from it. -/
theorem test_hyp_StepKeepsInvariant :
    let s := sched [.tick 1] s0
    Inv s ∧ step s = .next (nextOf s) := by
  refine ⟨⟨⟨by decide, by decide, by unfold idleMirrors; decide, trivial, by unfold busyInStatus; decide, by decide⟩, by decide,
    by decide, ?_, by decide, .inl rfl, fun _ => trivial, rfl, by decide⟩, rfl⟩
  intro h
  cases h

theorem test_hyp_ReachableStatesSatisfyR40 : Reachable s0 := ⟨Config.ref, 0, [], [], 0, .refl _⟩

theorem test_hyp_PhaseTracksPositionForever :
    let s := sched [.sequencer] (busyAt 10 .step [.stepOp 0 .backward])
    PhaseTracksPosition s ∧ step s = .next (nextOf s) := ⟨by unfold PhaseTracksPosition; decide, rfl⟩

/-- V-E1 from the presentation of its word to its completion. -/
def parking : List Move :=
  [.present [0x04000000], .accept] ++ (List.replicate 6 [Move.tick 10, Move.sequencer]).flatten ++ [.sequencer, .sequencer]

theorem test_hyp_DeenergizePatternIsHeld :
    let s := after 16 (State.boot Config.ref 0 [] parking 0)
    Reachable s ∧ s.seq = .idle ∧ s.motorsOff = true :=
  ⟨⟨Config.ref, 0, [], parking, 0, steps_after 16 _ (by decide +kernel)⟩, by decide +kernel, by decide +kernel⟩

theorem test_hyp_RepeatedStepsCount : s0.posWidth = .unbounded := rfl

/-- A DRIVE of two steps, Busy, with a schedule that completes it. -/
def driving : State :=
  sched [.tick 10, .sequencer, .tick 10, .sequencer, .sequencer] (busyAt 0 .drive [.stepOp 2 .backward, .stepOp 2 .backward])

theorem test_hyp_PulsesOfPlanUnderAnySchedule :
    driving.seq = .busy .drive [.stepOp 2 .backward, .stepOp 2 .backward] ∧ BusySteps driving (after 5 driving) ∧
    (after 5 driving).seq = .idle := ⟨rfl, busySteps_after 5 _ (by decide), by decide⟩

theorem test_hyp_EveryScheduleSameOutcome :
    driving.seq = .busy .drive [.stepOp 2 .backward, .stepOp 2 .backward] ∧ BusySteps driving (after 5 driving) ∧
    (after 5 driving).seq = .idle := test_hyp_PulsesOfPlanUnderAnySchedule

/-- `S0` with a schedule that completes a command of two pulses. -/
def twoPulses : State := sched [.tick 10, .sequencer, .tick 10, .sequencer, .sequencer] s0

/-- `S0` with a two-bit position counter: the smallest finite width. -/
def narrow : State :=
  { twoPulses with cfg := ⟨{ Params.ref with posWidth := .bits 2 }, by decide⟩ }

theorem test_hyp_CompletedDriveMovesExactly :
    twoPulses.seq = .idle ∧ (2 : Word).toNat = (2 : JointIdx).val ∧ (1 : Word).toNat = dirCode .backward ∧
    0 < (2 : Word).toInt ∧ twoPulses.motorsOff = false ∧
    exec (.drive 2 2 1) twoPulses = .next (accepted (.drive 2 2 1) twoPulses) ∧
    BusySteps (accepted (.drive 2 2 1) twoPulses) (after 5 (accepted (.drive 2 2 1) twoPulses)) ∧
    (after 5 (accepted (.drive 2 2 1) twoPulses)).seq = .idle ∧ twoPulses.posWidth = .unbounded ∧ narrow.posWidth = .bits 2 :=
  ⟨rfl, rfl, rfl, by decide, rfl, rfl, busySteps_after 5 _ (by decide), by decide, rfl, rfl⟩

theorem test_hyp_CompletedDriveMultiMovesExactly :
    twoPulses.seq = .idle ∧ ([1, 1] : List Word).map BitVec.toNat = ([1, 1] : List JointIdx).map Fin.val ∧
    ([1, 1] : List Word).length = ([1, 1] : List Word).length ∧ twoPulses.motorsOff = false ∧
    exec (.driveMulti [1, 1] [1, 1]) twoPulses = .next (accepted (.driveMulti [1, 1] [1, 1]) twoPulses) ∧
    BusySteps (accepted (.driveMulti [1, 1] [1, 1]) twoPulses) (after 5 (accepted (.driveMulti [1, 1] [1, 1]) twoPulses)) ∧
    (after 5 (accepted (.driveMulti [1, 1] [1, 1]) twoPulses)).seq = .idle ∧ narrow.posWidth = .bits 2 ∧
    positionFits (.bits 2) (narrow.pos 1) ∧ positionFits (.bits 2) (-2) ∧ positionFits (.bits 2) 1 ∧
    (0 : JointIdx) ∉ ([1, 1] : List JointIdx) :=
  ⟨rfl, rfl, rfl, rfl, rfl, busySteps_after 5 _ (by decide), by decide, rfl, by unfold positionFits; decide,
    by unfold positionFits; decide, by unfold positionFits; decide, by decide⟩

/-- `S0` with a schedule that completes a SET_ENERGIZED. -/
def sixPulses : State := sched ((List.replicate 6 [Move.tick 10, Move.sequencer]).flatten ++ [.sequencer, .sequencer]) s0

theorem test_hyp_CompletedSetEnergizedHoldsPhases :
    sixPulses.seq = .idle ∧ exec (.setEnergized false) sixPulses = .next (accepted (.setEnergized false) sixPulses) ∧
    BusySteps (accepted (.setEnergized false) sixPulses) (after 14 (accepted (.setEnergized false) sixPulses)) ∧
    (after 14 (accepted (.setEnergized false) sixPulses)).seq = .idle :=
  ⟨rfl, rfl, busySteps_after 14 _ (by decide +kernel), by decide +kernel⟩

theorem test_hyp_EagerScheduleTimes :
    driving.seq = .busy .drive [.stepOp 2 .backward, .stepOp 2 .backward] ∧
    driving.agenda = eagerMoves driving.tMin (driving.gateTime - driving.now) [.stepOp 2 .backward, .stepOp 2 .backward] ++ [] :=
  ⟨rfl, by decide⟩

/-- `T_MIN` is 10: no tick is that long, the ticks before each of the two turns that count add up to it, and a turn and an
acceptance that change nothing stand between. -/
theorem test_hyp_TimedTurnsCompleteCommand :
    let ms : List Move := [.tick 3, .sequencer, .tick 7, .sequencer, .accept, .tick 1, .tick 9, .sequencer]
    let s := sched (ms ++ []) (busyAt 0 .step [.stepOp 0 .forward])
    s.seq = .busy .step [.stepOp 0 .forward] ∧ s.last ≤ s.now ∧ s.agenda = ms ++ [] ∧ Move.reset ∉ ms ∧
    [MicroOp.stepOp 0 .forward].length + 1 ≤ timedTurns s.tMin 0 ms := by decide

/-- An endless schedule: one tick, one turn, one tick, one turn, ... -/
def alternating (n : Nat) : Move := if n % 2 = 0 then .tick 1 else .sequencer

theorem alternating_now (s : State) (n : Nat) : n ≤ (afterMoves alternating s (2 * n)).now := by
  induction n with
  | zero => exact Nat.zero_le _
  | succ n ih =>
    have hTick : alternating (2 * n) = .tick 1 := if_pos (by omega)
    have hTurn : alternating (2 * n + 1) = .sequencer := if_neg (by omega)
    rw [show 2 * (n + 1) = 2 * n + 1 + 1 by omega, afterMoves_turn _ _ hTurn, (State.sequencerTurn_frame _).2.1,
      afterMoves_tick _ _ hTick, State.advanceTime_now]
    omega

theorem test_hyp_WeaklyFairSchedulesComplete :
    (busyAt 0 .step [.stepOp 0 .forward]).seq = .busy .step [.stepOp 0 .forward] ∧ (∀ n, alternating n ≠ .reset) ∧
    weaklyFair alternating (busyAt 0 .step [.stepOp 0 .forward]) := by
  refine ⟨rfl, fun n => ?_, fun time => ⟨2 * time, alternating_now _ time⟩, fun n _ => ⟨2 * n + 1, by omega, if_neg (by omega)⟩⟩
  unfold alternating
  split <;> exact fun h => by cases h

/-- A reset, then a STEP and its pulse at the first time that is allowed. -/
theorem test_hyp_NoPulseSoonAfterReset :
    let s := sched [.reset, .tick 10] s0
    s.nextMove = .reset ∧ step s = .next (nextOf s) ∧ Steps (nextOf s) (after 1 (nextOf s)) :=
  ⟨rfl, rfl, steps_after 1 _ (by decide)⟩

theorem test_hyp_MotorsOffRefusesMotion : offState.seq = .idle ∧ offState.motorsOff = true := by decide

/-- Two states that differ in a phase and a position alone, and a run. -/
theorem test_hyp_HostNeverSeesPhaseOrPosition :
    SameToHost driving (driving.advance 2 .forward) ∧ driving.phase 2 ≠ (driving.advance 2 .forward).phase 2 ∧
    core.run 1 driving = .next (nextOf driving) :=
  ⟨⟨rfl, by decide, rfl, rfl, rfl, rfl, rfl, rfl, rfl, rfl, rfl, rfl, rfl⟩, by decide, rfl⟩

end Sys2Proof.Tests
end

section
/-! PROOFS. What building a configuration checks (spec/00_scope.md R9, R10, R11), and the moves that are no transition in the
state they meet (R15, R90, R144). -/

namespace Sys2Proof

/-! The check of a configuration, part by part, in the terms of R9, R10 and R11. -/

/-- A mask with the strobe bit keeps bit 0 alone. -/
theorem byte_and_one_eq_zero_iff (b : Byte) : b &&& 0x01 = 0 ↔ b.getLsbD 0 = false := by
  have mask : b &&& 0x01 = (BitVec.ofBool (b.getLsbD 0)).setWidth 8 := BitVec.and_one_eq_setWidth_ofBool_getLsbD
  rw [mask]
  cases b.getLsbD 0 <;> decide

theorem Params.addrStrobeClear_iff (p : Params) :
    p.addrStrobeClear = true ↔ ∀ j : JointIdx, p.addr[j] &&& 0x01 = 0 := by
  simp only [Params.addrStrobeClear, decide_eq_true_eq, byte_and_one_eq_zero_iff]

theorem Params.addrDistinct_iff (p : Params) :
    p.addrDistinct = true ↔ ∀ i j : JointIdx, i ≠ j → p.addr[i] ≠ p.addr[j] := by
  simp only [Params.addrDistinct, decide_eq_true_eq, ne_eq, not_imp_not]

theorem Params.phaseStrobeClear_iff (p : Params) :
    p.phaseStrobeClear = true ↔ ∀ q : PhaseIdx, p.phase[q] &&& 0x01 = 0 := by
  simp only [Params.phaseStrobeClear, decide_eq_true_eq, byte_and_one_eq_zero_iff]

theorem Params.posWidthOk_iff (p : Params) : p.posWidthOk = true ↔ ∀ n, p.posWidth = .bits n → 2 ≤ n := by
  unfold Params.posWidthOk
  cases p.posWidth with
  | unbounded => simp
  | bits n => simp

theorem Params.tickPositive_iff (p : Params) : p.tickPositive = true ↔ 0 < p.tick := by
  simp only [Params.tickPositive, decide_eq_true_eq]

theorem Params.wf_iff (p : Params) :
    p.wf = true ↔
      (∀ j : JointIdx, p.addr[j] &&& 0x01 = 0) ∧ (∀ i j : JointIdx, i ≠ j → p.addr[i] ≠ p.addr[j]) ∧
      (∀ q : PhaseIdx, p.phase[q] &&& 0x01 = 0) ∧ (∀ n, p.posWidth = .bits n → 2 ≤ n) ∧ 0 < p.tick := by
  simp only [Params.wf, Bool.and_eq_true, and_assoc, p.addrStrobeClear_iff, p.addrDistinct_iff, p.phaseStrobeClear_iff,
    p.posWidthOk_iff, p.tickPositive_iff]

/-- What is left when the check fails: one of its five parts is violated somewhere. -/
theorem Params.not_wf_iff (p : Params) :
    p.wf ≠ true ↔
      (∃ j : JointIdx, p.addr[j] &&& 0x01 ≠ 0) ∨ (∃ i j : JointIdx, i ≠ j ∧ p.addr[i] = p.addr[j]) ∨
      (∃ q : PhaseIdx, p.phase[q] &&& 0x01 ≠ 0) ∨ (∃ n, p.posWidth = .bits n ∧ n < 2) ∨ p.tick = 0 := by
  simp only [ne_eq, p.wf_iff, not_and_or, not_forall, not_not, Nat.not_le, Nat.not_lt, Nat.le_zero, exists_prop]

/-! Building a configuration answers on both sides of the check. -/

theorem Config.build_of_wf {p : Params} (h : p.wf = true) : Config.build p = .ok ⟨p, h⟩ := dif_pos h

/-- Whatever the first failing check, the build ends in an error. -/
theorem Config.build_of_not_wf {p : Params} (h : p.wf ≠ true) : ∃ why, Config.build p = .error why := by
  unfold Config.build
  rw [dif_neg h]
  split_ifs <;> exact ⟨_, rfl⟩

theorem Config.build_ok_iff (p : Params) : (∃ c : Config, Config.build p = .ok c ∧ c.params = p) ↔ p.wf = true := by
  constructor
  · rintro ⟨c, _, rfl⟩
    exact c.wf
  · intro h
    exact ⟨⟨p, h⟩, Config.build_of_wf h, rfl⟩

theorem Config.build_error_iff (p : Params) : (∃ why, Config.build p = .error why) ↔ p.wf ≠ true := by
  constructor
  · rintro ⟨why, hError⟩ h
    rw [Config.build_of_wf h] at hError
    cases hError
  · exact Config.build_of_not_wf

/-- Settles O10: a configuration is built exactly on well-formed parameters, and its check is R9, R10 and R11 part by part. -/
theorem configurationsAreChecked : Obligations.ConfigurationsAreChecked := fun p =>
  ⟨(Config.build_ok_iff p).trans p.wf_iff, (Config.build_error_iff p).trans p.not_wf_iff⟩

end Sys2Proof

namespace Sys2Proof.Machine

/-! Moves that are not enabled. -/

theorem State.advanceTime_zero (s : State) : s.advanceTime 0 = s := rfl

/-- Acceptance that is not enabled: the block is Busy, or no whole command waits (R77, R90). -/
theorem State.acceptTurn_of_disabled {s : State} (h : s.enabled .accept = false) : s.acceptTurn = .next s := by
  rcases State.acceptTurn_cases s with ⟨_, _, _, hSame⟩ | ⟨_, _, _, hSame⟩ | ⟨hIdle, i, rest, hDecode, _⟩
  · exact hSame
  · exact hSame
  · have hWaits : s.commandWaits = true := s.commandWaits_iff.mpr ⟨i, rest, hDecode⟩
    simp [State.enabled, hIdle, Seq.isBusy, hWaits] at h

/-- A sequencer's turn that is not enabled: the block is Idle, or its head waits at the gate (R84, R88). -/
theorem State.sequencerTurn_of_disabled {s : State} (h : s.enabled .sequencer = false) : s.sequencerTurn = s := by
  rcases State.sequencerTurn_cases s with ⟨_, hSame⟩ | ⟨_, hSeq, _⟩ | ⟨_, _, _, _, _, hSame⟩ | ⟨_, _, _, hSeq, hHead, _⟩
  · exact hSame
  · simp [State.enabled, hSeq] at h
  · exact hSame
  · simp [State.enabled, hSeq, hHead] at h

theorem State.makeMove_of_disabled {s : State} {m : Move} (h : s.enabled m = false) : s.makeMove m = .next s := by
  cases m with
  | present ws => cases h
  | presentByte b => cases h
  | accept => exact State.acceptTurn_of_disabled h
  | sequencer => exact congrArg Host.Outcome.next (State.sequencerTurn_of_disabled h)
  | tick delta =>
    obtain rfl : delta = 0 := by simpa [State.enabled] using h
    exact congrArg Host.Outcome.next s.advanceTime_zero
  | reset => cases h

/-- Settles O36: a step makes its move in the state after the choice, where a disabled move leaves everything. -/
theorem disabledMovesChangeNothing : Obligations.DisabledMovesChangeNothing := fun _ => State.makeMove_of_disabled

end Sys2Proof.Machine
end

section
/-! PROOFS. What a step does to the block itself, the host's side of the command port and the schedule left out of sight: one
inversion lemma, from which every claim about who writes what, and every invariant, is derived. -/

namespace Sys2Proof.Machine

/-! The block with the host's side and the schedule forgotten. -/

/-- The state with nothing presented and nothing scheduled: the block, its output port, the time and the configuration. -/
def State.block (s : State) : State := { s with commandPort := [], partialWord := [], agenda := [], choices := 0 }

/-- Two states with the same block; each field of the block is then the same. -/
def SameBlock (s t : State) : Prop := s.block = t.block

section

variable {s t : State} (h : SameBlock s t)

include h

theorem SameBlock.read {α : Type} (f : State → α) : f s.block = f t.block := congrArg f h

theorem SameBlock.cfg : s.cfg = t.cfg := h.read fun v => v.cfg
theorem SameBlock.joints : s.joints = t.joints := h.read fun v => v.joints
theorem SameBlock.motorsOff : s.motorsOff = t.motorsOff := h.read fun v => v.motorsOff
theorem SameBlock.last : s.last = t.last := h.read fun v => v.last
theorem SameBlock.seq : s.seq = t.seq := h.read fun v => v.seq
theorem SameBlock.status : s.status = t.status := h.read fun v => v.status
theorem SameBlock.bus : s.bus = t.bus := h.read fun v => v.bus
theorem SameBlock.portLog : s.portLog = t.portLog := h.read fun v => v.portLog
theorem SameBlock.now : s.now = t.now := h.read fun v => v.now
theorem SameBlock.phase (j : JointIdx) : s.phase j = t.phase j := h.read fun v => v.phase j
theorem SameBlock.pos (j : JointIdx) : s.pos j = t.pos j := h.read fun v => v.pos j
theorem SameBlock.energized (j : JointIdx) : s.energized j = t.energized j := h.read fun v => v.energized j

end

/-- Choosing a move touches the schedule alone (R146). -/
theorem State.afterChoice_block (s : State) : SameBlock s.afterChoice s := by
  rcases State.afterChoice_cases s with ⟨m, ms, _, _, h⟩ | ⟨_, _, h⟩ <;> rw [h] <;> rfl

/-- A delivered byte touches the host's side alone (R44). -/
theorem State.presentByte_block (s : State) (b : Byte) : SameBlock (s.presentByte b) s := by
  rcases State.presentByte_cases s b with ⟨_, _, _, _, h⟩ | ⟨_, h⟩ <;> rw [h] <;> rfl

/-- What a micro-operation does to the block depends on the block alone (R86, R87, R103). -/
theorem State.perform_block (s : State) (op : MicroOp) : (s.perform op).block = s.block.perform op := by
  cases op with
  | stepOp j d => rfl
  | strobeOp j on => cases on <;> rfl
  | setOff b => rfl

/-- The block after the head `op` of the plan `op :: rest` (R88). -/
def State.performHead (k : Kind) (op : MicroOp) (rest : List MicroOp) (s : State) : State :=
  { s.perform op with seq := .busy k rest }

theorem State.performHead_block_congr {r s : State} (k : Kind) (op : MicroOp) (rest : List MicroOp) (h : SameBlock r s) :
    SameBlock (r.performHead k op rest) (s.performHead k op rest) := by
  have hPerform : (r.perform op).block = (s.perform op).block := by rw [r.perform_block, h, s.perform_block]
  exact congrArg (fun t : State => { t with seq := .busy k rest }) hPerform

/-! One step, seen from the block. -/

/-- What a command that ends at once may leave in `status` and `data`: a diagnostic or OK, and no data but an address with OK
(R30, R32, R81, R107). -/
def Answers (s : State) (status data : Byte) : Prop :=
  status ∈ legalStatus ∧ status ≠ statusBusy ∧ (data = 0x00 ∨ status = statusOK ∧ ∃ j : JointIdx, data = s.addr j)

/-- The plans an acceptance may set: that of SET_ENERGIZED, or StepOps with the motors on (R90, R98, R102). -/
def Plans (s : State) (k : Kind) (plan : List MicroOp) : Prop :=
  (k = .setEnergized ∧ ∃ en, plan = energizePlan en) ∨
  (k ≠ .setEnergized ∧ s.motorsOff = false ∧ ∀ op ∈ plan, ∃ j d, op = .stepOp j d)

/-- What the step from `s` to `t` does to the block: nothing but let time pass, the two outcomes of an acceptance, the two of a
sequencer's turn, or a reset (R88, R89, R90, R130, R144). -/
inductive BlockStep (s t : State) : Prop where
  | hold (now : Nat) (later : s.now ≤ now) (same : SameBlock t { s with now := now })
  | answer (status data : Byte) (move : s.nextMove = .accept) (idle : s.seq = .idle) (answers : Answers s status data)
      (same : SameBlock t { s with status := status, data := data })
  | begin (k : Kind) (plan : List MicroOp) (move : s.nextMove = .accept) (idle : s.seq = .idle) (plans : Plans s k plan)
      (same : SameBlock t (s.beginPlan k plan))
  | perform (k : Kind) (op : MicroOp) (rest : List MicroOp) (move : s.nextMove = .sequencer)
      (busy : s.seq = .busy k (op :: rest)) (enabled : s.headEnabled op = true)
      (same : SameBlock t (s.performHead k op rest))
  | complete (k : Kind) (move : s.nextMove = .sequencer) (busy : s.seq = .busy k []) (same : SameBlock t s.complete)
  | reset (move : s.nextMove = .reset) (same : SameBlock t s.resetBlock)

/-- A step that leaves the block as it was. -/
theorem BlockStep.of_same {s t : State} (h : SameBlock t s) : BlockStep s t := .hold s.now le_rfl h

theorem Diagnostic.answers (s : State) (e : Diagnostic) : Answers s e.code 0x00 := by
  refine ⟨?_, ?_, .inl rfl⟩ <;> cases e <;> decide

/-- An acceptance, seen from the block: a state `r` whose block is that of `s` accepts for it (R90). -/
theorem AcceptOutcome.blockStep {s r t : State} (hMove : s.nextMove = .accept) (hr : SameBlock r s)
    (h : AcceptOutcome r t) : BlockStep s t := by
  rcases h with rfl | ⟨hIdle, i, rest, _, hExec⟩
  · exact .of_same hr
  · have hSeq : s.seq = .idle := hr.seq.symm.trans hIdle
    have hOff : r.motorsOff = s.motorsOff := hr.motorsOff
    have hCfg : r.cfg = s.cfg := hr.cfg
    obtain ⟨u, hu, hCases⟩ := exec_idle_cases (s := { r with commandPort := rest }) i hIdle
    obtain rfl : u = t := by rw [hu] at hExec; exact Host.Outcome.next.inj hExec
    rcases hCases with ⟨e, rfl⟩ | rfl | ⟨j, rfl⟩ | ⟨k, plan, _, rfl, hPlan⟩
    · exact .answer e.code 0x00 hMove hSeq (e.answers s) (congrArg (State.diag e) hr)
    · exact .answer statusOK 0x00 hMove hSeq ⟨by decide, by decide, .inl rfl⟩ (congrArg State.finishAtOnce hr)
    · refine .answer statusOK (r.addr j) hMove hSeq ⟨by decide, by decide, .inr ⟨rfl, j, s.addr_congr j r hCfg⟩⟩ ?_
      exact congrArg (fun v : State => { v with data := r.addr j, status := statusOK }) hr
    · refine .begin k plan hMove hSeq ?_ (congrArg (State.beginPlan k plan) hr)
      rw [Plans, ← hOff]
      exact hPlan

/-- A sequencer's turn, seen from the block (R84, R88, R89). -/
theorem State.sequencerTurn_blockStep {s r : State} (hMove : s.nextMove = .sequencer) (hr : SameBlock r s) :
    BlockStep s r.sequencerTurn := by
  have hSeq : r.seq = s.seq := hr.seq
  rcases State.sequencerTurn_cases r with ⟨_, h⟩ | ⟨k, hk, h⟩ | ⟨_, _, _, _, _, h⟩ | ⟨k, op, rest, hk, hHead, h⟩ <;> rw [h]
  · exact .of_same hr
  · exact .complete k hMove (hSeq ▸ hk) (congrArg State.complete hr)
  · exact .of_same hr
  · refine .perform k op rest hMove (hSeq ▸ hk) ?_ (State.performHead_block_congr k op rest hr)
    rw [← hHead]
    exact (hr.read (State.headEnabled op)).symm

/-- Every step that answers next is one of these to the block. -/
theorem step_blockStep {s t : State} (h : step s = .next t) : BlockStep s t := by
  have hChoice := s.afterChoice_block
  rcases step_cases h with ⟨ws, _, rfl⟩ | ⟨b, _, rfl⟩ | ⟨hMove, hAccept⟩ | ⟨hMove, rfl⟩ | ⟨delta, _, rfl⟩ | ⟨hMove, rfl⟩
  · exact .of_same hChoice
  · exact .of_same ((State.presentByte_block _ b).trans hChoice)
  · exact hAccept.blockStep hMove hChoice
  · exact State.sequencerTurn_blockStep hMove hChoice
  · exact .hold (s.now + delta) (Nat.le_add_right _ _) (congrArg (State.advanceTime delta) hChoice)
  · exact .reset hMove (congrArg State.resetBlock hChoice)

/-! The head of a plan, field by field. -/

section

variable (s : State) (k : Kind) (op : MicroOp) (rest : List MicroOp)

@[simp] theorem State.performHead_cfg : (s.performHead k op rest).cfg = s.cfg := by
  obtain ⟨h, _⟩ := s.perform_frame op
  exact h

@[simp] theorem State.performHead_seq : (s.performHead k op rest).seq = .busy k rest := rfl

@[simp] theorem State.performHead_status : (s.performHead k op rest).status = s.status := by
  obtain ⟨_, _, h, _⟩ := s.perform_frame op
  exact h

@[simp] theorem State.performHead_data : (s.performHead k op rest).data = s.data := by
  obtain ⟨_, _, _, h, _⟩ := s.perform_frame op
  exact h

@[simp] theorem State.performHead_now : (s.performHead k op rest).now = s.now := by
  obtain ⟨_, _, _, _, h, _⟩ := s.perform_frame op
  exact h

/-- Only a StepOp on the joint moves it (R86, R87, R103). -/
theorem State.performHead_joint (j : JointIdx) :
    (∃ d, op = .stepOp j d ∧ (s.performHead k op rest).phase j = advancePhase (s.phase j) d ∧
      (s.performHead k op rest).pos j = wrapPosition s.posWidth (s.pos j + d.delta)) ∨
    ((∀ d, op ≠ .stepOp j d) ∧ (s.performHead k op rest).phase j = s.phase j ∧
      (s.performHead k op rest).pos j = s.pos j) := by
  cases op with
  | stepOp i d =>
    have hPhase := s.stepOp_phase i j d
    have hPos := s.stepOp_pos i j d
    by_cases hij : i = j
    · subst hij
      rw [if_pos rfl] at hPhase hPos
      exact .inl ⟨d, rfl, hPhase, hPos⟩
    · rw [if_neg hij] at hPhase hPos
      exact .inr ⟨fun _ e => hij (MicroOp.stepOp.inj e).1, hPhase, hPos⟩
  | strobeOp i on => exact .inr ⟨fun _ => nofun, by cases on <;> rfl, by cases on <;> rfl⟩
  | setOff b => exact .inr ⟨fun _ => nofun, s.setOff_phase j b, s.setOff_pos j b⟩

/-- Only SetOff writes the flags, and it writes them together (R24, R26, R103). -/
theorem State.performHead_flags :
    (∃ b, op = .setOff b ∧ (s.performHead k op rest).motorsOff = b ∧
      ∀ j : JointIdx, (s.performHead k op rest).energized j = !b) ∨
    ((∀ b, op ≠ .setOff b) ∧ (s.performHead k op rest).motorsOff = s.motorsOff ∧
      ∀ j : JointIdx, (s.performHead k op rest).energized j = s.energized j) := by
  cases op with
  | stepOp i d => exact .inr ⟨fun _ => nofun, rfl, fun j => s.stepOp_energized i j d⟩
  | strobeOp i on => exact .inr ⟨fun _ => nofun, by cases on <;> rfl, fun j => by cases on <;> rfl⟩
  | setOff b => exact .inl ⟨b, rfl, rfl, fun j => s.setOff_energized j b⟩

/-- A head that may be performed is a pulse with the gate open, or SetOff, which leaves the port and `last` (R83, R84). -/
theorem State.performHead_port (h : s.headEnabled op = true) :
    (s.last + s.tMin ≤ s.now ∧ ∃ p : Pulse, p.time = s.now ∧ p.byte.getLsbD 0 = false ∧
      (s.performHead k op rest).last = s.now ∧ (s.performHead k op rest).bus = some p.byte ∧
      (s.performHead k op rest).portLog = s.portLog ++ p.writes) ∨
    ((s.performHead k op rest).last = s.last ∧ (s.performHead k op rest).bus = s.bus ∧
      (s.performHead k op rest).portLog = s.portLog) := by
  rcases s.perform_port op with ⟨hPulse, b, hb, hBus, hLast, hLog⟩ | ⟨_, hBus, hLast, hLog⟩
  · have hGate : s.gateOpen = true := by simpa [State.headEnabled, hPulse] using h
    exact .inl ⟨of_decide_eq_true hGate, ⟨s.now, b⟩, rfl, hb, hLast, hBus, hLog⟩
  · exact .inr ⟨hLast, hBus, hLog⟩

end

end Sys2Proof.Machine
end

section
/-! PROOFS. Who writes what (spec/10_state.md R22 to R34): each field of the block that only some of its transitions change, and
what a reset leaves. -/

namespace Sys2Proof.Machine

theorem BlockStep.cfg {s t : State} (h : BlockStep s t) : t.cfg = s.cfg := by
  cases h with
  | hold _ _ same => exact same.cfg
  | answer _ _ _ _ _ same => exact same.cfg
  | begin _ _ _ _ _ same => exact same.cfg
  | perform k op rest _ _ _ same => exact same.cfg.trans (s.performHead_cfg k op rest)
  | complete _ _ _ same => exact same.cfg
  | reset _ same => exact same.cfg

/-- Settles O37, by induction on the steps. -/
theorem configurationIsNeverWritten : Obligations.ConfigurationIsNeverWritten := by
  intro s t h
  induction h with
  | refl => rfl
  | tail _ hStep ih => exact (step_blockStep hStep).cfg.trans ih

/-- A transition that is neither a reset nor the performing of a head leaves the joints, `motors_off` and
`last`. -/
theorem BlockStep.writer_cases {s t : State} (h : BlockStep s t) :
    s.nextMove = .reset ∧ SameBlock t s.resetBlock ∨
    (∃ k op rest, s.nextMove = .sequencer ∧ s.seq = .busy k (op :: rest) ∧ s.headEnabled op = true ∧
      SameBlock t (s.performHead k op rest)) ∨
    (t.joints = s.joints ∧ t.motorsOff = s.motorsOff ∧ t.last = s.last) := by
  cases h with
  | hold _ _ same =>
    exact .inr (.inr ⟨same.joints, same.motorsOff, same.last⟩)
  | answer _ _ _ _ _ same =>
    exact .inr (.inr ⟨same.joints, same.motorsOff, same.last⟩)
  | begin _ _ _ _ _ same =>
    exact .inr (.inr ⟨same.joints, same.motorsOff, same.last⟩)
  | perform k op rest move busy enabled same => exact .inr (.inl ⟨k, op, rest, move, busy, enabled, same⟩)
  | complete _ _ _ same =>
    exact .inr (.inr ⟨same.joints, same.motorsOff, same.last⟩)
  | reset move same => exact .inl ⟨move, same⟩

/-- Settles O38: among the micro-operations only a StepOp on the joint moves it. -/
theorem onlyStepOpsMoveJoints : Obligations.OnlyStepOpsMoveJoints := by
  intro s t j hStep hChanged
  rcases (step_blockStep hStep).writer_cases with ⟨hMove, _⟩ | ⟨k, op, rest, hMove, hBusy, _, hSame⟩ | ⟨hJoints, _, _⟩
  · exact .inl hMove
  · have hPhase : t.phase j = (s.performHead k op rest).phase j := hSame.phase j
    have hPos : t.pos j = (s.performHead k op rest).pos j := hSame.pos j
    rcases s.performHead_joint k op rest j with ⟨d, rfl, _, _⟩ | ⟨_, hPhase', hPos'⟩
    · exact .inr ⟨hMove, k, d, rest, hBusy⟩
    · simp [hPhase, hPhase', hPos, hPos'] at hChanged
  · simp [State.phase, State.pos, hJoints] at hChanged

/-- Settles O39: among the micro-operations only SetOff writes the flags. -/
theorem onlySetOffWritesFlags : Obligations.OnlySetOffWritesFlags := by
  intro s t hStep hChanged
  rcases (step_blockStep hStep).writer_cases with ⟨hMove, _⟩ | ⟨k, op, rest, hMove, hBusy, _, hSame⟩ | ⟨hJoints, hOff, _⟩
  · exact .inl hMove
  · have hOff : t.motorsOff = (s.performHead k op rest).motorsOff := hSame.motorsOff
    have hEnergized (j : JointIdx) : t.energized j = (s.performHead k op rest).energized j :=
      hSame.energized j
    rcases s.performHead_flags k op rest with ⟨b, rfl, _, _⟩ | ⟨_, hOff', hEnergized'⟩
    · exact .inr ⟨hMove, k, b, rest, hBusy⟩
    · simp [hOff, hOff', hEnergized, hEnergized'] at hChanged
  · simp [State.energized, hJoints, hOff] at hChanged

/-- Settles O40: a head that writes `last` is a pulse, and writes its own time. -/
theorem onlyPulsesWriteLast : Obligations.OnlyPulsesWriteLast := by
  intro s t hStep hChanged
  rcases (step_blockStep hStep).writer_cases with ⟨hMove, hSame⟩ | ⟨k, op, rest, _, _, hHead, hSame⟩ | ⟨_, _, hLast⟩
  · exact ⟨hSame.last, .inl hMove⟩
  · have hLast : t.last = (s.performHead k op rest).last := hSame.last
    have hLog : t.portLog = (s.performHead k op rest).portLog := hSame.portLog
    rcases s.performHead_port k op rest hHead with ⟨_, p, hTime, _, hLast', _, hLog'⟩ | ⟨hLast', _, _⟩
    · exact ⟨hLast.trans hLast', .inr ⟨p, hTime, hLog.trans hLog'⟩⟩
    · exact absurd (hLast.trans hLast') hChanged
  · exact absurd hLast hChanged

/-- Settles O42: a Busy block accepts nothing, so its plan is held, loses its head, is completed empty, or is discarded. -/
theorem plansOnlyShrink : Obligations.PlansOnlyShrink := by
  intro s t k plan hBusy hStep
  cases step_blockStep hStep with
  | hold _ _ same => exact .inl (same.seq.trans hBusy)
  | answer _ _ _ idle _ _ => rw [hBusy] at idle; cases idle
  | begin _ _ _ idle _ _ => rw [hBusy] at idle; cases idle
  | perform k' op rest _ busy _ same =>
    rw [hBusy] at busy
    cases busy
    exact .inr (.inl ⟨op, rfl, same.seq⟩)
  | complete k' move busy same =>
    rw [hBusy] at busy
    cases busy
    exact .inr (.inr (.inl ⟨rfl, move, same.seq, same.status⟩))
  | reset move same => exact .inr (.inr (.inr ⟨move, same.seq⟩))

/-- A joint of a block whose joints are all as reset leaves them. -/
theorem initial_joints_getElem (j : JointIdx) :
    (Vector.replicate 6 CommutationState.initial)[j] = CommutationState.initial := Vector.getElem_replicate j.isLt

theorem State.resetBlock_fresh (s : State) : fresh s.now s.resetBlock :=
  ⟨initial_joints_getElem, rfl, rfl, rfl, rfl, rfl, rfl⟩

/-- A step whose move is reset resets the block that the choice of the move left as it was (R130). -/
theorem step_reset {s t : State} (hMove : s.nextMove = .reset) (h : step s = .next t) : SameBlock t s.resetBlock := by
  obtain rfl : s.afterChoice.resetBlock = t := by
    rw [step, hMove] at h
    exact Host.Outcome.next.inj h
  exact congrArg State.resetBlock s.afterChoice_block

/-- Settles O33: what a reset leaves is FRESH, and the reset writes no port and no time. -/
theorem resetLeavesFresh : Obligations.ResetLeavesFresh := by
  refine ⟨fun s t hMove hStep => ?_, ⟨initial_joints_getElem, rfl, rfl, rfl, rfl, rfl, rfl⟩, rfl, rfl⟩
  have same := step_reset hMove hStep
  exact ⟨(same.read (fresh s.now)).mpr s.resetBlock_fresh, same.now, same.bus, same.portLog, same.cfg⟩

end Sys2Proof.Machine
end

section
/-! PROOFS. The invariant of the block (spec/10_state.md R40): it holds after reset, every step keeps it, and so it holds of every
reachable state. -/

namespace Sys2Proof.Machine

/-! The arithmetic of phases and positions (R22, R23). -/

theorem advancePhase_val (p : PhaseIdx) (d : Dir) : ((advancePhase p d).val : Int) = (p.val + d.delta) % 4 := by
  cases d <;> revert p <;> decide

/-- A counter of two bits or more keeps the count modulo 4. -/
theorem wrapPosition_mod_four {w : PosWidth} (hw : ∀ n, w = .bits n → 2 ≤ n) (x : Int) : wrapPosition w x % 4 = x % 4 := by
  cases w with
  | unbounded => rfl
  | bits n =>
    have hDvd : (4 : Int) ∣ ((2 ^ n : Nat) : Int) := by exact_mod_cast Nat.pow_dvd_pow 2 (hw n rfl)
    calc x.bmod (2 ^ n) % 4 = x.bmod (2 ^ n) % ((2 ^ n : Nat) : Int) % 4 := (Int.emod_emod_of_dvd _ hDvd).symm
      _ = x % ((2 ^ n : Nat) : Int) % 4 := by rw [Int.bmod_emod]
      _ = x % 4 := Int.emod_emod_of_dvd _ hDvd

theorem positionFits_wrapPosition {w : PosWidth} (hw : ∀ n, w = .bits n → 2 ≤ n) (x : Int) :
    positionFits w (wrapPosition w x) := by
  cases w with
  | unbounded => trivial
  | bits n =>
    obtain ⟨m, rfl⟩ : ∃ m, n = m + 1 := ⟨n - 1, by have := hw n rfl; omega⟩
    have hLow := Int.le_bmod (x := x) (Nat.two_pow_pos (m + 1))
    have hHigh := Int.bmod_lt (x := x) (Nat.two_pow_pos (m + 1))
    have hPow : ((2 ^ (m + 1) : Nat) : Int) = 2 * 2 ^ m := by push_cast; ring
    simp only [positionFits, wrapPosition, Nat.add_sub_cancel]
    constructor <;> omega

theorem positionFits_zero (w : PosWidth) : positionFits w 0 := by
  cases w with
  | unbounded => trivial
  | bits n => exact ⟨by simp, by positivity⟩

/-! Pulse histories (R40 I6). -/

theorem pulsesOf_some {l : List (Nat × Byte)} {ps : List Pulse} (h : pulsesOf l = some ps) :
    l = pulseWrites ps ∧ ∀ p ∈ ps, p.byte.getLsbD 0 = false := by
  induction l using pulsesOf.induct generalizing ps with
  | case1 => cases h; exact ⟨rfl, nofun⟩
  | case2 => cases h
  | case3 t1 b1 t2 b2 rest hPair ih =>
    simp only [pulsesOf, if_pos hPair, Option.map_eq_some_iff] at h
    obtain ⟨qs, hRest, rfl⟩ := h
    obtain ⟨hWrites, hBits⟩ := ih hRest
    obtain ⟨rfl, rfl, hBit⟩ := hPair
    exact ⟨by rw [hWrites]; rfl, List.forall_mem_cons.mpr ⟨hBit, hBits⟩⟩
  | case4 t1 b1 t2 b2 rest hPair =>
    simp only [pulsesOf, if_neg hPair] at h
    cases h

theorem spaced_pairwise {tMin : Nat} {ps : List Pulse} (h : spaced tMin ps = true) :
    ps.Pairwise fun p q => p.time ≤ q.time := by
  have hChain : ps.IsChain fun p q => p.time ≤ q.time := by
    induction ps using spaced.induct with
    | case1 p q ps ih =>
      simp only [spaced, Bool.and_eq_true, decide_eq_true_eq] at h
      exact .cons_cons (by omega) (ih h.2)
    | case2 ps hShort =>
      match ps, hShort with
      | [], _ => exact .nil
      | [p], _ => exact .singleton p
      | p :: q :: ps, hShort => exact absurd rfl (hShort p q ps)
  have : Trans (fun p q : Pulse => p.time ≤ q.time) (fun p q : Pulse => p.time ≤ q.time)
      (fun p q : Pulse => p.time ≤ q.time) := ⟨Nat.le_trans⟩
  exact hChain.pairwise

theorem endsBy_iff (t : Nat) (ps : List Pulse) : endsBy t ps = true ↔ ∀ p ∈ ps.getLast?, p.time ≤ t := by
  unfold endsBy
  cases ps.getLast? <;> simp

/-- The port as the invariant has it: a history of spaced pulses, none later than `last`, and the bus at the last byte. -/
structure PortInv (s : State) : Prop where
  history : ∃ ps, pulsesOf s.portLog = some ps ∧ spaced s.tMin ps = true ∧ ∀ p ∈ ps.getLast?, p.time ≤ s.last
  bus : s.bus = s.portLog.getLast?.map Prod.snd

theorem historyOk_and_lastCovers_iff (s : State) :
    (historyOk s = true ∧ lastCoversHistory s = true) ↔
      ∃ ps, pulsesOf s.portLog = some ps ∧ spaced s.tMin ps = true ∧ ∀ p ∈ ps.getLast?, p.time ≤ s.last := by
  unfold historyOk lastCoversHistory
  cases pulsesOf s.portLog with
  | none => simp
  | some ps => simp only [endsBy_iff, Option.some.injEq, exists_eq_left']

/-- `last` moves on and the port is left alone: the history stays covered (R27). -/
theorem PortInv.last_mono {s t : State} (h : PortInv s) (hCfg : t.cfg = s.cfg) (hLog : t.portLog = s.portLog)
    (hBus : t.bus = s.bus) (hLast : s.last ≤ t.last) : PortInv t := by
  obtain ⟨ps, hPulses, hSpaced, hCovered⟩ := h.history
  refine ⟨⟨ps, hLog ▸ hPulses, ?_, fun p hp => (hCovered p hp).trans hLast⟩, by rw [hBus, hLog, h.bus]⟩
  rwa [s.tMin_congr t hCfg]

/-- A pulse with the gate open keeps the history spaced, because no earlier pulse is later than `last` (R84). -/
theorem PortInv.pulse {s t : State} (h : PortInv s) (hCfg : t.cfg = s.cfg) (hGate : s.last + s.tMin ≤ s.now) (p : Pulse)
    (hTime : p.time = s.now) (hBit : p.byte.getLsbD 0 = false) (hLast : t.last = s.now) (hBus : t.bus = some p.byte)
    (hLog : t.portLog = s.portLog ++ p.writes) : PortInv t := by
  obtain ⟨ps, hPulses, hSpaced, hCovered⟩ := h.history
  refine ⟨⟨ps ++ [p], ?_, ?_, ?_⟩, ?_⟩
  · rw [hLog]
    exact pulsesOf_append_pulse hPulses hBit
  · rw [s.tMin_congr t hCfg]
    refine spaced_append hSpaced fun q hq => ?_
    have := hCovered q hq
    omega
  · intro q hq
    rw [List.getLast?_concat] at hq
    cases hq
    omega
  · rw [hBus, hLog, Pulse.writes, List.getLast?_append]
    rfl

/-! What is left of a plan (R94, R98, R102). -/

theorem planShape_idle_iff {s : State} (h : s.seq = .idle) :
    planShape s ↔ (s.motorsOff = true → s.bus = some (s.addr 5)) := by
  rw [planShape, h]

theorem planShape_busy_iff {s : State} {k : Kind} {plan : List MicroOp} (h : s.seq = .busy k plan) :
    planShape s ↔
      (k = .setEnergized ∧ (∃ en, plan <:+ energizePlan en) ∧ (plan = [.setOff true] → s.bus = some (s.addr 5)) ∧
        (plan = [] → s.motorsOff = true → s.bus = some (s.addr 5))) ∨
      (k ≠ .setEnergized ∧ plan.all MicroOp.isStep = true ∧ s.motorsOff = false) := by
  rw [planShape, h]
  cases k <;> simp

theorem MicroOp.isStep_iff (op : MicroOp) : op.isStep = true ↔ ∃ j d, op = .stepOp j d := by
  cases op <;> simp [MicroOp.isStep]

theorem energizePlan_no_step {en : Bool} {op : MicroOp} (h : op ∈ energizePlan en) : op.isStep = false := by
  simp only [energizePlan, List.mem_cons, List.not_mem_nil, or_false] at h
  rcases h with rfl | rfl | rfl | rfl | rfl | rfl | rfl <;> rfl

/-- The last micro-operation of a SET_ENERGIZED plan writes the flags (R103). -/
theorem energizePlan_last {en : Bool} {op : MicroOp} (h : [op] <:+ energizePlan en) : op = .setOff (!en) := by
  rw [List.suffix_iff_eq_drop] at h
  exact (List.cons.inj h).1

/-- The one before it pulses joint 5 (R100, R101). -/
theorem energizePlan_before_last {en b : Bool} {op : MicroOp} (h : [op, .setOff b] <:+ energizePlan en) :
    op = .strobeOp 5 (!b) := by
  rw [List.suffix_iff_eq_drop] at h
  obtain ⟨rfl, hLast⟩ := List.cons.inj h
  obtain rfl : b = !en := MicroOp.setOff.inj (List.cons.inj hLast).1
  rw [Bool.not_not]

/-- I4 of R40 is part of the shape of a plan: only a plan of a motion command has StepOps. -/
theorem motionNotOff_of_planShape {s : State} (h : planShape s) : motionNotOff s := by
  unfold motionNotOff
  split
  · trivial
  · rename_i k plan hSeq
    intro hStep
    rcases (planShape_busy_iff hSeq).mp h with ⟨_, ⟨en, hSuffix⟩, _⟩ | ⟨_, _, hOn⟩
    · obtain ⟨op, hop, hIsStep⟩ := List.any_eq_true.mp hStep
      rw [energizePlan_no_step (hSuffix.subset hop)] at hIsStep
      cases hIsStep
    · exact hOn

theorem Plans.planShape {s : State} {k : Kind} {plan : List MicroOp} (h : Plans s k plan) :
    planShape (s.beginPlan k plan) := by
  rw [planShape_busy_iff (s.beginPlan_seq k plan)]
  rcases h with ⟨rfl, en, rfl⟩ | ⟨hKind, hOn, hSteps⟩
  · exact .inl ⟨rfl, ⟨en, List.suffix_rfl⟩, nofun, nofun⟩
  · exact .inr ⟨hKind, List.all_eq_true.mpr fun op hop => op.isStep_iff.mpr (hSteps op hop), hOn⟩

/-- Performing the head leaves the rest of a plan of the same shape; a de-energizing plan ends with the strobe of joint 5's
address bits, which SetOff then holds on the bus (R26, R102). -/
theorem planShape_performHead {s : State} {k : Kind} {op : MicroOp} {rest : List MicroOp}
    (hBusy : s.seq = .busy k (op :: rest)) (h : planShape s) : planShape (s.performHead k op rest) := by
  rw [planShape_busy_iff (s.performHead_seq k op rest)]
  rcases (planShape_busy_iff hBusy).mp h with ⟨hKind, ⟨en, hSuffix⟩, hBus, _⟩ | ⟨hKind, hSteps, hOn⟩
  · refine .inl ⟨hKind, ⟨en, (List.suffix_cons op rest).trans hSuffix⟩, ?_, ?_⟩
    · rintro rfl
      obtain rfl := energizePlan_before_last hSuffix
      rfl
    · rintro rfl hOff
      obtain rfl := energizePlan_last hSuffix
      have hen : (!en) = true := hOff
      rw [hen] at hBus ⊢
      exact hBus rfl
  · rw [List.all_cons, Bool.and_eq_true] at hSteps
    obtain ⟨hHead, hRest⟩ := hSteps
    obtain ⟨j, d, rfl⟩ := op.isStep_iff.mp hHead
    exact .inr ⟨hKind, hRest, hOn⟩

/-! The invariant, with named parts and without what follows from them. -/

/-- The part of `Inv` that is about the block; `Inv` has besides it only the bytes of a word that wait (`inv_iff`). -/
structure BlockInv (s : State) : Prop where
  lastPast : s.last ≤ s.now
  mirrors : ∀ j : JointIdx, s.energized j = !s.motorsOff
  shape : planShape s
  busy : busyInStatus s
  status : s.status ∈ legalStatus
  data : dataOk s
  position : ∀ j : JointIdx, positionFits s.posWidth (s.pos j)
  port : PortInv s

theorem inv_iff (s : State) : Inv s ↔ BlockInv s ∧ s.partialWord.length ≤ 3 := by
  constructor
  · rintro ⟨⟨_, hLast, _, _, hBusy, hHistory⟩, hCovers, hMirrors, hShape, hStatus, hData, hPos, hBus, hBytes⟩
    exact ⟨⟨hLast, hMirrors, hShape, hBusy, hStatus, hData, hPos,
      (historyOk_and_lastCovers_iff s).mp ⟨hHistory, hCovers⟩, hBus⟩, hBytes⟩
  · rintro ⟨h, hBytes⟩
    obtain ⟨hHistory, hCovers⟩ := (historyOk_and_lastCovers_iff s).mpr h.port.history
    exact ⟨⟨fun j => Nat.le_of_lt_succ (s.phase j).isLt, h.lastPast, fun _ => h.mirrors,
      motionNotOff_of_planShape h.shape, h.busy, hHistory⟩, hCovers, h.mirrors, h.shape, h.status, h.data, h.position,
      h.port.bus, hBytes⟩

/-! Each transition keeps the block's part. -/

theorem BlockInv.of_block {s : State} (h : BlockInv s.block) : BlockInv s := { h with port := { h.port with } }

theorem BlockInv.to_block {s : State} (h : BlockInv s) : BlockInv s.block := { h with port := { h.port with } }

theorem BlockInv.congr {s t : State} (same : SameBlock t s) (h : BlockInv s) : BlockInv t :=
  .of_block (same.symm ▸ h.to_block)

theorem BlockInv.later {s : State} (h : BlockInv s) {now : Nat} (hNow : s.now ≤ now) : BlockInv { s with now := now } :=
  { h with lastPast := h.lastPast.trans hNow, port := { h.port with } }

theorem BlockInv.answer {s : State} (h : BlockInv s) (hIdle : s.seq = .idle) {status data : Byte}
    (hAnswers : Answers s status data) : BlockInv { s with status := status, data := data } := by
  obtain ⟨hLegal, hNotBusy, hData⟩ := hAnswers
  refine { h with busy := ?_, status := hLegal, data := ?_, port := { h.port with } }
  · simp [busyInStatus, hNotBusy, hIdle, Seq.isBusy]
  · exact hData.imp id fun ⟨hOK, hAddr⟩ => ⟨hIdle, hOK, hAddr⟩

theorem BlockInv.beginPlan {s : State} (h : BlockInv s) {k : Kind} {plan : List MicroOp} (hPlans : Plans s k plan) :
    BlockInv (s.beginPlan k plan) :=
  { h with
    shape := hPlans.planShape
    busy := iff_of_true rfl rfl
    status := by rw [State.beginPlan_status]; decide
    data := .inl rfl
    port := { h.port with } }

/-- While Busy no address is in `data` (R32). -/
theorem BlockInv.data_of_busy {s : State} (h : BlockInv s) {k : Kind} {plan : List MicroOp} (hBusy : s.seq = .busy k plan) :
    s.data = 0x00 := by
  rcases h.data with hData | ⟨hIdle, _⟩
  · exact hData
  · rw [hBusy] at hIdle
    cases hIdle

theorem BlockInv.performHead {s : State} (h : BlockInv s) {k : Kind} {op : MicroOp} {rest : List MicroOp}
    (hBusy : s.seq = .busy k (op :: rest)) (hHead : s.headEnabled op = true) : BlockInv (s.performHead k op rest) := by
  have hCfg := s.performHead_cfg k op rest
  have hLast : s.last ≤ (s.performHead k op rest).last ∧ (s.performHead k op rest).last ≤ s.now := by
    rcases s.performHead_port k op rest hHead with ⟨_, _, _, _, hLast, _⟩ | ⟨hLast, _⟩ <;> rw [hLast]
    · exact ⟨h.lastPast, le_rfl⟩
    · exact ⟨le_rfl, h.lastPast⟩
  refine ⟨?_, ?_, planShape_performHead hBusy h.shape, ?_, ?_, .inl ?_, ?_, ?_⟩
  · rw [State.performHead_now]
    exact hLast.2
  · rcases s.performHead_flags k op rest with ⟨b, _, hOff, hEnergized⟩ | ⟨_, hOff, hEnergized⟩ <;> intro j
    · rw [hOff, hEnergized]
    · rw [hOff, hEnergized, h.mirrors]
  · have hStatus : s.status = statusBusy := h.busy.mpr (by rw [hBusy]; rfl)
    exact iff_of_true ((s.performHead_status k op rest).trans hStatus) rfl
  · rw [State.performHead_status]
    exact h.status
  · rw [State.performHead_data]
    exact h.data_of_busy hBusy
  · intro j
    rw [s.posWidth_congr _ hCfg]
    rcases s.performHead_joint k op rest j with ⟨d, _, _, hPos⟩ | ⟨_, _, hPos⟩ <;> rw [hPos]
    · exact positionFits_wrapPosition (fun n => posWidth_two_le s) _
    · exact h.position j
  · rcases s.performHead_port k op rest hHead with ⟨hGate, p, hTime, hBit, hNow, hBus, hLog⟩ | ⟨_, hBus, hLog⟩
    · exact h.port.pulse hCfg hGate p hTime hBit hNow hBus hLog
    · exact h.port.last_mono hCfg hLog hBus hLast.1

theorem BlockInv.complete {s : State} (h : BlockInv s) {k : Kind} (hBusy : s.seq = .busy k []) : BlockInv s.complete := by
  refine { h with shape := ?_, busy := ?_, status := ?_, data := .inl rfl, port := { h.port with } }
  · rw [planShape_idle_iff s.complete_seq]
    intro hOff
    rcases (planShape_busy_iff hBusy).mp h.shape with ⟨_, _, _, hHeld⟩ | ⟨_, _, hOn⟩
    · exact hHeld rfl hOff
    · exact absurd (hOn.symm.trans hOff) (by decide)
  · exact iff_of_false (by rw [State.complete_status]; decide) nofun
  · rw [State.complete_status]
    decide

/-- The block's registers as a reset leaves them have the invariant, whatever the port held before (R39). -/
theorem BlockInv.of_fresh {s : State} {t0 : Nat} (hFresh : fresh t0 s) (hPort : PortInv s) : BlockInv s := by
  obtain ⟨hJoints, hOn, hLast, hNow, hIdle, hStatus, hData⟩ := hFresh
  refine ⟨by omega, ?_, ?_, ?_, ?_, .inl hData, ?_, hPort⟩
  · intro j
    rw [State.energized, hJoints, hOn]
    rfl
  · rw [planShape_idle_iff hIdle, hOn]
    nofun
  · simp [busyInStatus, hStatus, hIdle, statusOK, statusBusy, Seq.isBusy]
  · rw [hStatus]
    decide
  · intro j
    rw [State.pos, hJoints]
    exact positionFits_zero _

theorem BlockInv.resetBlock {s : State} (h : BlockInv s) : BlockInv s.resetBlock :=
  .of_fresh s.resetBlock_fresh (h.port.last_mono rfl rfl rfl h.lastPast)

theorem BlockStep.blockInv {s t : State} (hStep : BlockStep s t) (h : BlockInv s) : BlockInv t := by
  cases hStep with
  | hold now later same => exact .congr same (h.later later)
  | answer status data _ idle answers same => exact .congr same (h.answer idle answers)
  | begin k plan _ _ plans same => exact .congr same (h.beginPlan plans)
  | perform k op rest _ busy enabled same => exact .congr same (h.performHead busy enabled)
  | complete k _ busy same => exact .congr same (h.complete busy)
  | reset _ same => exact .congr same h.resetBlock

/-! The bytes of a word that wait (R45). -/

theorem State.presentByte_partialWord {s : State} (h : s.partialWord.length ≤ 3) (b : Byte) :
    (s.presentByte b).partialWord.length ≤ 3 := by
  rcases s.presentByte_cases b with ⟨_, _, _, _, hByte⟩ | ⟨hNotThree, hByte⟩ <;> rw [hByte]
  · exact Nat.zero_le 3
  · have : (s.partialWord ++ [b]).length = s.partialWord.length + 1 := List.length_append
    simp only [this]
    omega

/-- Only a delivered byte touches the bytes that wait (R44). -/
theorem step_partialWord {s t : State} (hStep : step s = .next t) (h : s.partialWord.length ≤ 3) :
    t.partialWord.length ≤ 3 := by
  obtain ⟨_, _, _, _, _, _, _, _, _, _, _, hSame⟩ := s.afterChoice_frame
  rw [← hSame] at h
  rcases step_cases hStep with ⟨ws, _, rfl⟩ | ⟨b, _, rfl⟩ | ⟨_, hAccept⟩ | ⟨_, rfl⟩ | ⟨delta, _, rfl⟩ | ⟨_, rfl⟩
  · exact h
  · exact State.presentByte_partialWord h b
  · obtain ⟨_, _, _, _, _, _, _, hBytes, _⟩ := hAccept.frame
    rwa [hBytes]
  · obtain ⟨_, _, _, hBytes, _⟩ := State.sequencerTurn_frame s.afterChoice
    rwa [hBytes]
  · exact h
  · exact h

/-! The obligations. -/

/-- Settles O43: every transition keeps the block's part, and no move lets a fourth byte wait. -/
theorem stepKeepsInvariant : Obligations.StepKeepsInvariant := by
  intro s t hInv hStep
  rw [inv_iff] at hInv ⊢
  exact ⟨(step_blockStep hStep).blockInv hInv.1, step_partialWord hStep hInv.2⟩

theorem boot_fresh (cfg : Config) (t0 : Nat) (port : List Word) (agenda : List Move) (choices : Nat) :
    fresh t0 (State.boot cfg t0 port agenda choices) := ⟨initial_joints_getElem, rfl, rfl, rfl, rfl, rfl, rfl⟩

theorem boot_inv (cfg : Config) (t0 : Nat) (port : List Word) (agenda : List Move) (choices : Nat) :
    Inv (State.boot cfg t0 port agenda choices) :=
  (inv_iff _).mpr ⟨.of_fresh (boot_fresh cfg t0 port agenda choices) ⟨⟨[], rfl, rfl, nofun⟩, rfl⟩, Nat.zero_le 3⟩

/-- Settles O44: `State.reset` is a block booted at time 0. -/
theorem resetHasInvariant : Obligations.ResetHasInvariant := ⟨boot_inv Config.built 0 [] [] 0, boot_inv⟩

/-- What holds of every booted block and is kept by every step holds of every reachable state. -/
theorem Reachable.induct {P : State → Prop} (hBoot : ∀ cfg t0 port agenda choices, P (State.boot cfg t0 port agenda choices))
    (hStep : ∀ s t, P s → step s = .next t → P t) {s : State} (h : Reachable s) : P s := by
  obtain ⟨cfg, t0, port, agenda, choices, hSteps⟩ := h
  induction hSteps with
  | refl => exact hBoot cfg t0 port agenda choices
  | tail _ hLast ih => exact hStep _ _ ih hLast

theorem Reachable.blockInv {s : State} (h : Reachable s) : BlockInv s :=
  ((inv_iff s).mp (h.induct boot_inv stepKeepsInvariant)).1

/-- Settles O45: R40's invariants are read off the invariant of reachable states. -/
theorem reachableStatesSatisfyR40 : Obligations.ReachableStatesSatisfyR40 := by
  intro s hReach
  have h := hReach.blockInv
  obtain ⟨ps, hPulses, hSpaced, _⟩ := h.port.history
  obtain ⟨hWrites, hBits⟩ := pulsesOf_some hPulses
  refine ⟨fun j => ⟨Nat.zero_le _, Nat.le_of_lt_succ (s.phase j).isLt⟩, h.lastPast, fun _ => h.mirrors, ?_, ?_,
    ps, hWrites, spaced_pairwise hSpaced, hSpaced, fun p hp => (byte_and_one_eq_zero_iff p.byte).mpr (hBits p hp)⟩
  · rintro k plan hBusy ⟨j, d, hMem⟩
    have hMotion := motionNotOff_of_planShape h.shape
    rw [motionNotOff, hBusy] at hMotion
    exact hMotion (List.any_eq_true.mpr ⟨_, hMem, rfl⟩)
  · refine h.busy.trans ?_
    cases s.seq <;> simp [Seq.isBusy]

/-- Settles O47: it is the shape of the plan of an Idle block. -/
theorem deenergizePatternIsHeld : Obligations.DeenergizePatternIsHeld := fun _ hReach hIdle =>
  (planShape_idle_iff hIdle).mp hReach.blockInv.shape

/-! Phase and position count the same steps (R22, R23). -/

theorem PhaseTracksPosition.of_joints {s t : State} (hJoints : t.joints = s.joints) (h : PhaseTracksPosition s) :
    PhaseTracksPosition t := by
  intro j
  simpa [State.phase, State.pos, hJoints] using h j

theorem phaseTracksPosition_of_fresh {s : State} {t0 : Nat} (h : fresh t0 s) : PhaseTracksPosition s := by
  obtain ⟨hJoints, _⟩ := h
  intro j
  rw [State.phase, State.pos, hJoints]
  rfl

/-- A StepOp adds the same `delta` to both (R86). -/
theorem PhaseTracksPosition.performHead {s : State} (h : PhaseTracksPosition s) (k : Kind) (op : MicroOp)
    (rest : List MicroOp) : PhaseTracksPosition (s.performHead k op rest) := by
  intro j
  rcases s.performHead_joint k op rest j with ⟨d, _, hPhase, hPos⟩ | ⟨_, hPhase, hPos⟩ <;> rw [hPhase, hPos]
  · calc ((advancePhase (s.phase j) d).val : Int) = ((s.phase j).val + d.delta) % 4 := advancePhase_val _ _
      _ = (s.pos j % 4 + d.delta) % 4 := by rw [h j]
      _ = (s.pos j + d.delta) % 4 := Int.emod_add_emod ..
      _ = wrapPosition s.posWidth (s.pos j + d.delta) % 4 :=
        (wrapPosition_mod_four (fun n => posWidth_two_le s) _).symm
  · exact h j

/-- Settles O46: among the transitions only a StepOp and a reset touch phases and positions. -/
theorem phaseTracksPositionForever : Obligations.PhaseTracksPositionForever := by
  refine ⟨fun s t h hStep => ?_, fun cfg t0 port agenda choices =>
    phaseTracksPosition_of_fresh (boot_fresh cfg t0 port agenda choices)⟩
  rcases (step_blockStep hStep).writer_cases with ⟨_, same⟩ | ⟨k, op, rest, _, _, _, same⟩ | ⟨hJoints, _, _⟩
  · exact (phaseTracksPosition_of_fresh s.resetBlock_fresh).of_joints same.joints
  · exact (h.performHead k op rest).of_joints same.joints
  · exact h.of_joints hJoints

end Sys2Proof.Machine
end

section
/-! PROOFS. What a host can see (spec/10_state.md R22, R23, R37): blinding a state to phases, positions and the bytes on the port
goes with every transition, so two blocks that differ in these alone stay alike to the host. -/

namespace Sys2Proof.Machine

/-! Every step answers next (R107). -/

theorem exec_total (i : Instr) (s : State) : ∃ t, exec i s = .next t := by
  cases h : s.seq with
  | idle => obtain ⟨t, ht, _⟩ := exec_idle_cases i h; exact ⟨t, ht⟩
  | busy k plan => exact ⟨s, exec_busy i h⟩

theorem State.makeMove_total (s : State) (m : Move) : ∃ t, s.makeMove m = .next t := by
  cases m with
  | accept =>
    rcases s.acceptTurn_cases with ⟨_, _, _, h⟩ | ⟨_, _, _, h⟩ | ⟨_, i, rest, _, h⟩
    · exact ⟨s, h⟩
    · exact ⟨s, h⟩
    · obtain ⟨t, ht⟩ := exec_total i { s with commandPort := rest }
      exact ⟨t, h.trans ht⟩
  | _ => exact ⟨_, rfl⟩

theorem step_total (s : State) : ∃ t, step s = .next t := s.afterChoice.makeMove_total s.nextMove

/-- A run of `n + 1` steps that answers next is a first step and a run of `n`. -/
theorem run_succ_next {n : Nat} {s u : State} (h : core.run (n + 1) s = .next u) :
    ∃ t, step s = .next t ∧ core.run n t = .next u := by
  obtain ⟨t, hStep⟩ := step_total s
  exact ⟨t, hStep, (run_succ n hStep).symm.trans h⟩

/-! Acceptance and the sequencer's turn, an equation for each branch (R77, R84, R88, R89, R90). -/

section

variable {s : State} {k : Kind}

theorem State.acceptTurn_of_busy {plan : List MicroOp} (h : s.seq = .busy k plan) : s.acceptTurn = .next s := by
  rw [State.acceptTurn, h]

theorem State.acceptTurn_of_rejected {why : DecodeStop} (h : s.seq = .idle)
    (hDecode : decodeWords s.commandPort = .rejected why) : s.acceptTurn = .next s := by
  rw [State.acceptTurn, h, hDecode]

theorem State.acceptTurn_of_command {i : Instr} {rest : List Word} (h : s.seq = .idle)
    (hDecode : decodeWords s.commandPort = .command i rest) : s.acceptTurn = exec i { s with commandPort := rest } := by
  unfold State.acceptTurn
  simp only [h, hDecode]

theorem State.sequencerTurn_of_idle (h : s.seq = .idle) : s.sequencerTurn = s := by
  rw [State.sequencerTurn, h]

theorem State.sequencerTurn_of_empty (h : s.seq = .busy k []) : s.sequencerTurn = s.complete := by
  rw [State.sequencerTurn, h]

theorem State.sequencerTurn_of_head {op : MicroOp} {rest : List MicroOp} (h : s.seq = .busy k (op :: rest)) :
    s.sequencerTurn = if s.headEnabled op = true then s.performHead k op rest else s := by
  rw [State.sequencerTurn, h]
  rfl

end

/-! A state without what the host cannot see. -/

/-- Phases and positions at their reset values, the bytes on the port at zero; the times of the writes stay. -/
def State.blind (s : State) : State :=
  { s with
    joints := Vector.ofFn fun j : JointIdx => { CommutationState.initial with energized := s.energized j }
    bus := none
    portLog := s.portLog.map fun e => (e.1, 0x00) }

@[simp] theorem State.blind_energized (s : State) (j : JointIdx) : s.blind.energized j = s.energized j := by
  simp [State.energized, State.blind]

@[simp] theorem State.blind_times (s : State) : s.blind.portLog.map Prod.fst = s.portLog.map Prod.fst := by
  simp [State.blind, Function.comp_def]

theorem State.blind_congr {s t : State} (h : SameToHost s t) : s.blind = t.blind := by
  obtain ⟨hCfg, hEnergized, hOff, hLast, hSeq, hStatus, hData, hTimes, hNow, hPort, hPartial, hAgenda, hChoices⟩ := h
  have hLog : s.portLog.map (fun e => (e.1, (0x00 : Byte))) = t.portLog.map fun e => (e.1, 0x00) := by
    simpa only [List.map_map, Function.comp_def] using congrArg (List.map fun time => (time, (0x00 : Byte))) hTimes
  simp only [State.blind, hCfg, hEnergized, hOff, hLast, hSeq, hStatus, hData, hLog, hNow, hPort, hPartial, hAgenda,
    hChoices]

theorem sameToHost_blind (s : State) : SameToHost s s.blind :=
  ⟨rfl, fun j => (s.blind_energized j).symm, rfl, rfl, rfl, rfl, rfl, s.blind_times.symm, rfl, rfl, rfl, rfl, rfl⟩

theorem SameToHost.symm {s t : State} (h : SameToHost s t) : SameToHost t s := by
  obtain ⟨hCfg, hEnergized, hOff, hLast, hSeq, hStatus, hData, hTimes, hNow, hPort, hPartial, hAgenda, hChoices⟩ := h
  exact ⟨hCfg.symm, fun j => (hEnergized j).symm, hOff.symm, hLast.symm, hSeq.symm, hStatus.symm, hData.symm, hTimes.symm,
    hNow.symm, hPort.symm, hPartial.symm, hAgenda.symm, hChoices.symm⟩

theorem SameToHost.trans {s t u : State} (h : SameToHost s t) (h' : SameToHost t u) : SameToHost s u := by
  obtain ⟨hCfg, hEnergized, hOff, hLast, hSeq, hStatus, hData, hTimes, hNow, hPort, hPartial, hAgenda, hChoices⟩ := h
  obtain ⟨hCfg', hEnergized', hOff', hLast', hSeq', hStatus', hData', hTimes', hNow', hPort', hPartial', hAgenda',
    hChoices'⟩ := h'
  exact ⟨hCfg.trans hCfg', fun j => (hEnergized j).trans (hEnergized' j), hOff.trans hOff', hLast.trans hLast',
    hSeq.trans hSeq', hStatus.trans hStatus', hData.trans hData', hTimes.trans hTimes', hNow.trans hNow',
    hPort.trans hPort', hPartial.trans hPartial', hAgenda.trans hAgenda', hChoices.trans hChoices'⟩

theorem sameToHost_iff_blind (s t : State) : SameToHost s t ↔ s.blind = t.blind :=
  ⟨State.blind_congr, fun h => (sameToHost_blind s).trans (h ▸ (sameToHost_blind t).symm)⟩

theorem State.blind_blind (s : State) : s.blind.blind = s.blind := (State.blind_congr (sameToHost_blind s)).symm

/-! Blinding goes with every operation. Where an operation reads neither a phase nor a position it goes with the operation itself;
where it does (a pulse's byte, a step's new phase) the result has to be blinded again. -/

theorem State.pulse_blind (s : State) (b b' : Byte) : (s.blind.pulse b).blind = (s.pulse b').blind := by
  apply State.blind_congr
  refine ⟨rfl, s.blind_energized, rfl, rfl, rfl, rfl, rfl, ?_, rfl, rfl, rfl, rfl, rfl⟩
  simp only [State.pulse_portLog, List.map_append, State.blind_times]
  rfl

theorem State.advance_blind (s : State) (j : JointIdx) (d : Dir) : (s.advance j d).blind = s.blind :=
  State.blind_congr ⟨rfl, fun i => s.advance_energized j i d, rfl, rfl, rfl, rfl, rfl, rfl, rfl, rfl, rfl, rfl, rfl⟩

theorem State.setOff_blind (s : State) (b : Bool) : (s.blind.setOff b).blind = (s.setOff b).blind := by
  apply State.blind_congr
  refine ⟨rfl, fun j => ?_, rfl, rfl, rfl, rfl, rfl, s.blind_times, rfl, rfl, rfl, rfl, rfl⟩
  rw [State.setOff_energized, State.setOff_energized]

/-- Two pulses at blind-alike states are blind-alike, whatever their bytes (R83). -/
theorem State.pulse_blind_congr {s t : State} (h : s.blind = t.blind) (b b' : Byte) :
    (s.pulse b).blind = (t.pulse b').blind := by
  rw [← s.pulse_blind 0x00 b, h, t.pulse_blind 0x00 b']

theorem State.perform_blind (s : State) (op : MicroOp) : (s.blind.perform op).blind = (s.perform op).blind := by
  cases op with
  | stepOp j d =>
    apply State.pulse_blind_congr
    rw [State.advance_blind, State.advance_blind, State.blind_blind]
  | strobeOp j on =>
    simp only [State.perform, State.strobeOp_eq_pulse]
    exact State.pulse_blind_congr s.blind_blind _ _
  | setOff b => exact s.setOff_blind b

/-- What an act of acceptance does, it does to the blinded state alike (R90). -/
theorem State.whenIdle_blind {act : State → State} (hAct : ∀ s : State, act s.blind = (act s).blind) (s : State) :
    s.blind.whenIdle act = (s.whenIdle act).blind := by
  cases h : s.seq with
  | idle =>
    have hBlind : s.blind.seq = .idle := h
    rw [State.whenIdle_idle act h, State.whenIdle_idle act hBlind, hAct]
  | busy k plan =>
    have hBlind : s.blind.seq = .busy k plan := h
    rw [State.whenIdle_busy act h, State.whenIdle_busy act hBlind]

theorem State.acceptPlan_blind (s : State) (k : Kind) (v : Except Diagnostic (List MicroOp)) :
    s.blind.acceptPlan k v = (s.acceptPlan k v).blind := by
  refine State.whenIdle_blind (fun r => ?_) s
  match v with
  | .error e => rfl
  | .ok [] => rfl
  | .ok (op :: ops) => rfl

theorem State.answerAddress_blind (r : Except Diagnostic Byte) (s : State) :
    s.blind.answerAddress r = (s.answerAddress r).blind := by
  cases r <;> rfl

/-- No command reads a phase, a position or the port (R90). -/
theorem exec_blind {i : Instr} {s t : State} (h : exec i s = .next t) : exec i s.blind = .next t.blind := by
  cases i with
  | step j d => cases h; exact congrArg Host.Outcome.next (s.acceptPlan_blind _ _)
  | drive j n d => cases h; exact congrArg Host.Outcome.next (s.acceptPlan_blind _ _)
  | driveMulti js ss => cases h; exact congrArg Host.Outcome.next (s.acceptPlan_blind _ _)
  | setEnergized en => cases h; exact congrArg Host.Outcome.next (s.acceptPlan_blind _ _)
  | addressOf j =>
    cases h
    exact congrArg Host.Outcome.next (State.whenIdle_blind (State.answerAddress_blind (registryAddress s.cfg j)) s)
  | illegal hdr =>
    cases h
    exact congrArg Host.Outcome.next (State.whenIdle_blind (act := State.diag .illegalCommand) (fun _ => rfl) s)

theorem State.acceptTurn_blind {s t : State} (h : s.acceptTurn = .next t) : s.blind.acceptTurn = .next t.blind := by
  rcases s.acceptTurn_cases with ⟨k, plan, hBusy, hHold⟩ | ⟨hIdle, why, hDecode, hHold⟩ | ⟨hIdle, i, rest, hDecode, hExec⟩
  · cases hHold.symm.trans h
    exact State.acceptTurn_of_busy (s := s.blind) hBusy
  · cases hHold.symm.trans h
    exact State.acceptTurn_of_rejected (s := s.blind) hIdle hDecode
  · have hBlind := exec_blind (hExec.symm.trans h)
    exact (State.acceptTurn_of_command (s := s.blind) hIdle hDecode).trans hBlind

theorem State.performHead_blind (s : State) (k : Kind) (op : MicroOp) (rest : List MicroOp) :
    (s.blind.performHead k op rest).blind = (s.performHead k op rest).blind :=
  congrArg (fun t : State => { t with seq := .busy k rest }) (s.perform_blind op)

theorem State.sequencerTurn_blind (s : State) : s.blind.sequencerTurn.blind = s.sequencerTurn.blind := by
  match hSeq : s.seq with
  | .idle =>
    rw [State.sequencerTurn_of_idle hSeq, State.sequencerTurn_of_idle (s := s.blind) hSeq]
    exact s.blind_blind
  | .busy k [] =>
    rw [State.sequencerTurn_of_empty hSeq, State.sequencerTurn_of_empty (s := s.blind) hSeq]
    exact congrArg State.complete s.blind_blind
  | .busy k (op :: rest) =>
    have hHead : s.blind.headEnabled op = s.headEnabled op := rfl
    rw [State.sequencerTurn_of_head hSeq, State.sequencerTurn_of_head (s := s.blind) hSeq, hHead]
    split
    · exact s.performHead_blind k op rest
    · exact s.blind_blind

theorem State.presentByte_blind (s : State) (b : Byte) : s.blind.presentByte b = (s.presentByte b).blind := by
  rcases s.presentByte_cases b with ⟨b0, b1, b2, hBytes, h⟩ | ⟨hShort, h⟩ <;>
    rcases s.blind.presentByte_cases b with ⟨c0, c1, c2, hBytes', h'⟩ | ⟨hShort', h'⟩
  · cases hBytes.symm.trans hBytes'
    rw [h, h']
    rfl
  · exact absurd (congrArg List.length hBytes) hShort'
  · exact absurd (congrArg List.length hBytes') hShort
  · rw [h, h']
    rfl

theorem State.resetBlock_blind (s : State) : s.blind.resetBlock.blind = s.resetBlock.blind :=
  State.blind_congr ⟨rfl, fun _ => rfl, rfl, rfl, rfl, rfl, rfl, s.blind_times, rfl, rfl, rfl, rfl, rfl⟩

theorem State.makeMove_blind {s t : State} {m : Move} (h : s.makeMove m = .next t) :
    ∃ u, s.blind.makeMove m = .next u ∧ u.blind = t.blind := by
  cases m with
  | present ws => cases h; exact ⟨_, rfl, (s.presentWords ws).blind_blind⟩
  | presentByte b => cases h; exact ⟨_, congrArg Host.Outcome.next (s.presentByte_blind b), (s.presentByte b).blind_blind⟩
  | accept => exact ⟨_, State.acceptTurn_blind h, t.blind_blind⟩
  | sequencer => cases h; exact ⟨_, rfl, s.sequencerTurn_blind⟩
  | tick delta => cases h; exact ⟨_, rfl, (s.advanceTime delta).blind_blind⟩
  | reset => cases h; exact ⟨_, rfl, s.resetBlock_blind⟩

theorem State.afterChoice_blind (s : State) : s.blind.afterChoice = s.afterChoice.blind := by
  match hAgenda : s.agenda with
  | [] =>
    have hBlind : s.blind.agenda = [] := hAgenda
    rw [State.afterChoice, State.afterChoice, hAgenda, hBlind]
    rfl
  | m :: ms =>
    have hBlind : s.blind.agenda = m :: ms := hAgenda
    rw [State.afterChoice, State.afterChoice, hAgenda, hBlind]
    rfl

theorem step_blind {s t : State} (h : step s = .next t) : ∃ u, step s.blind = .next u ∧ u.blind = t.blind := by
  rw [step, s.afterChoice_blind]
  exact State.makeMove_blind h

/-- One step of two blocks that are alike to the host (R37). -/
theorem SameToHost.step {s t s' : State} (h : SameToHost s t) (hStep : step s = .next s') :
    ∃ t', step t = .next t' ∧ SameToHost s' t' := by
  obtain ⟨t', hStep'⟩ := step_total t
  obtain ⟨u, hu, hBlind⟩ := step_blind hStep
  obtain ⟨u', hu', hBlind'⟩ := step_blind hStep'
  rw [State.blind_congr h, hu'] at hu
  obtain rfl : u' = u := Host.Outcome.next.inj hu
  exact ⟨t', hStep', (sameToHost_iff_blind s' t').mpr (hBlind.symm.trans hBlind')⟩

theorem SameToHost.registers {s t : State} (h : SameToHost s t) : s.readStatus = t.readStatus ∧ s.readData = t.readData := by
  obtain ⟨_, _, _, _, _, hStatus, hData, _⟩ := h
  exact ⟨hStatus, hData⟩

/-- Settles O59, by induction on the number of steps. -/
theorem hostNeverSeesPhaseOrPosition : Obligations.HostNeverSeesPhaseOrPosition := by
  intro n
  induction n with
  | zero =>
    intro s t s' hSame hRun
    obtain rfl : s = s' := Host.Outcome.next.inj hRun
    exact ⟨t, rfl, hSame, hSame.registers⟩
  | succ n ih =>
    intro s t s' hSame hRun
    obtain ⟨s1, hStep, hRest⟩ := run_succ_next hRun
    obtain ⟨t1, hStep', hSame1⟩ := hSame.step hStep
    obtain ⟨t', hRun', hSame'⟩ := ih s1 t1 s' hSame1 hRest
    exact ⟨t', (run_succ n hStep').trans hRun', hSame'⟩

end Sys2Proof.Machine
end

section
/-! PROOFS. The command port on a byte-wide transport (spec/20_memory.md R44, R45): the bytes of a word go least significant first,
wait until the fourth has come, and then stand on the port as their word. -/

namespace Sys2Proof

/-- The value of four bytes sent least significant first: the `i`-th has weight `256 ^ i` (R44). -/
theorem wordOfBytes_toNat (b0 b1 b2 b3 : Byte) :
    (wordOfBytes b0 b1 b2 b3).toNat = b0.toNat + 256 * b1.toNat + 65536 * b2.toNat + 16777216 * b3.toNat := by
  unfold wordOfBytes
  simp only [BitVec.toNat_append]
  rw [← Nat.shiftLeft_add_eq_or_of_lt b2.isLt, ← Nat.shiftLeft_add_eq_or_of_lt b1.isLt,
    ← Nat.shiftLeft_add_eq_or_of_lt b0.isLt]
  simp only [Nat.shiftLeft_eq]
  omega

/-- The bytes of a word at the head of a stream are read as that word (R44). -/
theorem wordsOfBytes_bytesOfWord_append (w : Word) (bs : List Byte) :
    wordsOfBytes (bytesOfWord w ++ bs) = (w :: (wordsOfBytes bs).1, (wordsOfBytes bs).2) := by
  simp only [bytesOfWord, List.cons_append, List.nil_append, wordsOfBytes, wordOfBytes_bytesOfWord]

theorem wordsOfBytes_flatMap_bytesOfWord (ws : List Word) : wordsOfBytes (ws.flatMap bytesOfWord) = (ws, []) := by
  induction ws with
  | nil => rfl
  | cons w ws ih => rw [List.flatMap_cons, wordsOfBytes_bytesOfWord_append, ih]

end Sys2Proof

namespace Sys2Proof.Machine

/-- A byte that is not the fourth of its word waits (R45). -/
theorem State.presentByte_of_ne_three {s : State} (h : s.partialWord.length ≠ 3) (b : Byte) :
    s.presentByte b = { s with partialWord := s.partialWord ++ [b] } := by
  rcases s.presentByte_cases b with ⟨_, _, _, hThree, _⟩ | ⟨_, hWaits⟩
  · exact absurd (congrArg List.length hThree) h
  · exact hWaits

/-- The fourth byte makes the word (R44). -/
theorem State.presentByte_fourth {s : State} {b0 b1 b2 : Byte} (h : s.partialWord = [b0, b1, b2]) (b3 : Byte) :
    s.presentByte b3 = { s with partialWord := [], commandPort := s.commandPort ++ [wordOfBytes b0 b1 b2 b3] } := by
  rw [State.presentByte, h]
  rfl

/-- Bytes that do not finish a word all wait, and nothing else changes (R45). -/
theorem State.foldl_presentByte_short (bs : List Byte) {s : State} (h : s.partialWord.length + bs.length < 4) :
    bs.foldl (fun t b => t.presentByte b) s = { s with partialWord := s.partialWord ++ bs } := by
  induction bs generalizing s with
  | nil => rw [List.append_nil]; rfl
  | cons b bs ih =>
    rw [List.length_cons] at h
    have hWaits := State.presentByte_of_ne_three (s := s) (by omega) b
    have hShort : (s.presentByte b).partialWord.length + bs.length < 4 := by
      rw [hWaits, List.length_append, List.length_singleton]
      omega
    rw [List.foldl_cons, ih hShort, hWaits, List.append_assoc, List.singleton_append]

/-- Four bytes delivered where no byte waits are their word presented (R44). -/
theorem State.foldl_presentByte_word {s : State} (h : s.partialWord = []) (b0 b1 b2 b3 : Byte) :
    [b0, b1, b2, b3].foldl (fun t b => t.presentByte b) s = s.presentWords [wordOfBytes b0 b1 b2 b3] := by
  have hThree := State.foldl_presentByte_short [b0, b1, b2] (s := s) (by simp [h])
  calc [b0, b1, b2, b3].foldl (fun t b => t.presentByte b) s
      = ([b0, b1, b2].foldl (fun t b => t.presentByte b) s).presentByte b3 := rfl
    _ = { s with partialWord := [], commandPort := s.commandPort ++ [wordOfBytes b0 b1 b2 b3] } := by
        rw [hThree, State.presentByte_fourth (by rw [h]; rfl)]
    _ = s.presentWords [wordOfBytes b0 b1 b2 b3] := by rw [State.presentWords, ← h]

/-- Settles O8: three bytes wait, the fourth makes the word, and its value weighs the bytes in the order they came. -/
theorem littleEndianTransport : Obligations.LittleEndianTransport := by
  refine ⟨fun _ => rfl, fun s b0 b1 b2 b3 h => ?_, wordsOfBytes_flatMap_bytesOfWord, fun s w h => ⟨?_, fun n hn => ?_⟩⟩
  · exact ⟨wordOfBytes b0 b1 b2 b3, State.foldl_presentByte_word h b0 b1 b2 b3, wordOfBytes_toNat b0 b1 b2 b3⟩
  · rw [bytesOfWord, State.foldl_presentByte_word h, wordOfBytes_bytesOfWord]
  · have hShort : s.partialWord.length + ((bytesOfWord w).take n).length < 4 := by
      rw [h, List.length_nil, List.length_take]
      omega
    rw [State.foldl_presentByte_short _ hShort]

end Sys2Proof.Machine
end

section
/-! PROOFS. The command port of a Busy block, the writes of the output port, and the final states (spec/20_memory.md R48, R54;
spec/60_exceptions.md R129). -/

namespace Sys2Proof.Machine

/-- Settles O21: every arm leaves a Busy block as it is, and choosing the move leaves the block Busy. -/
theorem busyBlockAcceptsNothing : Obligations.BusyBlockAcceptsNothing := by
  intro s k plan hBusy
  refine ⟨fun i => exec_busy i hBusy, fun hMove => ?_⟩
  have hStill : s.afterChoice.seq = .busy k plan := s.afterChoice_block.seq.trans hBusy
  rw [step, hMove]
  exact State.acceptTurn_of_busy hStill

/-- Settles O41: only the head of a plan writes the port, and a head that writes is a pulse behind the gate. -/
theorem portChangesOnlyByWholePulses : Obligations.PortChangesOnlyByWholePulses := by
  intro s t hStep
  cases step_blockStep hStep with
  | hold _ _ same => exact .inl ⟨same.portLog, same.bus⟩
  | answer _ _ _ _ _ same => exact .inl ⟨same.portLog, same.bus⟩
  | begin _ _ _ _ _ same => exact .inl ⟨same.portLog, same.bus⟩
  | perform k op rest move busy enabled same =>
    rcases s.perform_port op with ⟨hPulse, b, hb, hBus, hLast, hLog⟩ | ⟨_, hBus, _, hLog⟩
    · have hGate : s.gateOpen = true := by simpa [State.headEnabled, hPulse] using enabled
      exact .inr ⟨move, of_decide_eq_true hGate, ⟨k, op, rest, busy, hPulse, same.seq⟩, b,
        (byte_and_one_eq_zero_iff b).mpr hb, same.portLog.trans hLog, same.bus.trans hBus, same.last.trans hLast⟩
    · exact .inl ⟨same.portLog.trans hLog, same.bus.trans hBus⟩
  | complete _ _ _ same => exact .inl ⟨same.portLog, same.bus⟩
  | reset _ same => exact .inl ⟨same.portLog, same.bus⟩

/-! Final states. -/

theorem final_iff (s : State) : final s = true ↔ s.seq = .idle ∧ s.commandWaits = false := by
  unfold final
  cases s.seq <;> simp [Seq.isBusy]

/-- Whether a state is final is read off its sequencer and the words on its port (R129). -/
theorem final_congr {s t : State} (hSeq : t.seq = s.seq) (hPort : t.commandPort = s.commandPort) : final t = final s := by
  rw [final, final, State.commandWaits, State.commandWaits, hSeq, hPort]

/-- The time is not observed, nor is what the host presents or what is scheduled (R129). -/
theorem observe_of_sameBlock {s t : State} {now : Nat} (h : SameBlock t { s with now := now }) : observe t = observe s :=
  h.read observe

/-- Acceptance in a final state finds no command (R77). -/
theorem AcceptOutcome.of_final {r t : State} (hFinal : final r = true) (h : AcceptOutcome r t) : t = r := by
  obtain ⟨_, hNoCommand⟩ := (final_iff r).mp hFinal
  rcases h with hSame | ⟨_, i, rest, hDecode, _⟩
  · exact hSame
  · have hWaits : r.commandWaits = true := r.commandWaits_iff.mpr ⟨i, rest, hDecode⟩
    rw [hWaits] at hNoCommand
    cases hNoCommand

/-- A step of a final state that is no reset lets time pass or touches the host's side of the command port, and words come to the
port only from the host. -/
theorem step_of_final {s t : State} (hFinal : final s = true) (hStep : step s = .next t) (hReset : s.nextMove ≠ .reset) :
    (∃ now, SameBlock t { s with now := now }) ∧
      (t.commandPort = s.commandPort ∨ (∃ ws, s.nextMove = .present ws) ∨ ∃ b, s.nextMove = .presentByte b) := by
  have hChoice := s.afterChoice_block
  obtain ⟨_, _, _, _, hSeq, _, _, _, _, _, hPort, _⟩ := s.afterChoice_frame
  have hFinalStill : final s.afterChoice = true := (final_congr hSeq hPort).trans hFinal
  rcases step_cases hStep with ⟨ws, hMove, rfl⟩ | ⟨b, hMove, rfl⟩ | ⟨_, hAccept⟩ | ⟨_, rfl⟩ | ⟨delta, _, rfl⟩ | ⟨hMove, _⟩
  · exact ⟨⟨s.now, hChoice⟩, .inr (.inl ⟨ws, hMove⟩)⟩
  · exact ⟨⟨s.now, (State.presentByte_block _ b).trans hChoice⟩, .inr (.inr ⟨b, hMove⟩)⟩
  · obtain rfl := hAccept.of_final hFinalStill
    exact ⟨⟨s.now, hChoice⟩, .inl hPort⟩
  · obtain ⟨hIdle, _⟩ := (final_iff _).mp hFinalStill
    rw [State.sequencerTurn_of_idle hIdle]
    exact ⟨⟨s.now, hChoice⟩, .inl hPort⟩
  · exact ⟨⟨s.now + delta, congrArg (State.advanceTime delta) hChoice⟩, .inl hPort⟩
  · exact absurd hMove hReset

/-- Settles O34: what such a step leaves of the block is all that is observed, and all that keeps a state final. -/
theorem finalStatesStayObserved : Obligations.FinalStatesStayObserved := by
  intro s t hFinal hStep hReset
  obtain ⟨⟨now, same⟩, hPort⟩ := step_of_final hFinal hStep hReset
  exact ⟨observe_of_sameBlock same, hPort.imp_left fun h => (final_congr same.seq h).trans hFinal⟩

end Sys2Proof.Machine
end

section
/-! PROOFS. The decoder and the encoder (spec/30_encoding.md R57 to R74, R78): the decoder reads a command back from its words, and
every header with as many operand words as it asks for is the encoding of a well-formed command. The other claims about the
decoder rest on these two facts. -/

namespace Sys2Proof

/-! A header word, and the row it belongs to. -/

theorem headerRow (i : Instr) : Laws.HeaderRow.Statement i := by
  cases i with
  | step j d => exact Laws.HeaderRow.step j d
  | drive j s d => exact Laws.HeaderRow.drive j s d
  | driveMulti js ss => exact Laws.HeaderRow.driveMulti js ss
  | setEnergized en => exact Laws.HeaderRow.setEnergized en
  | addressOf j => exact Laws.HeaderRow.addressOf j
  | illegal hdr => exact Laws.HeaderRow.illegal hdr

theorem length_encode (i : Instr) : (encode i).length = (operandWords i).length + 1 := rfl

theorem illegal_wf {hdr : Word} (h : legalHeader hdr = false) : (Instr.illegal hdr).wf = true := by
  rw [Instr.wf, h]
  rfl

/-- R72 on the header of a command: its words are counted. -/
theorem commandLength_headerWord {i : Instr} (h : i.wf = true) : commandLength (headerWord i) = (encode i).length := by
  obtain ⟨hClass, hLength⟩ := headerRow i h
  rw [commandLength_eq_words, hClass, hLength]

/-- The rows of R72, mask and value, with the masks of all ones read as equations. -/
theorem legalHeader_iff_rows (hdr : Word) :
    legalHeader hdr = true ↔
      hdr = 0x01000000 ∨ hdr = 0x02000000 ∨ hdr &&& 0xFFFF0000 = 0x03000000 ∨ hdr &&& 0xFFFFFFFE = 0x04000000 ∨
        hdr = 0x05000000 := by
  have allOnes : hdr &&& 0xFFFFFFFF = hdr := BitVec.and_allOnes
  simp only [legalHeader, opcodeRows, List.any_cons, List.any_nil, OpcodeRow.covers, allOnes, Bool.or_false, Bool.or_eq_true,
    beq_iff_eq]

/-- A header of DRIVE_MULTI's row is the header word of its two counts (R64). -/
theorem multi_header_eq {hdr : Word} (h : hdr &&& 0xFFFF0000 = 0x03000000) :
    hdr = 0x03000000 ||| (BitVec.ofNat 32 (hdrNJW hdr) <<< 8) ||| BitVec.ofNat 32 (hdrNSW hdr) := by
  obtain ⟨hOpcode, hReserved⟩ := (hdr_multi_iff hdr).mp h
  apply BitVec.eq_of_toNat_eq
  rw [hdrNJW, hdrNSW, Laws.HeaderRow.multi_header_toNat, hdr_toNat_opcode hdr, hdr_toNat_counts hdr, hOpcode, hReserved]
  simp only [BitVec.ofNat_eq_ofNat, BitVec.toNat_ofNat]
  omega

/-- A header of SET_ENERGIZED's row is the header word of its bit `EN` (R65). -/
theorem energize_header_eq {hdr : Word} (h : hdr &&& 0xFFFFFFFE = 0x04000000) :
    hdr = 0x04000000 ||| (BitVec.ofBool (hdrEN hdr)).setWidth 32 := by
  have bit0 : hdr &&& 0x00000001 = (BitVec.ofBool (hdrEN hdr)).setWidth 32 := BitVec.and_one_eq_setWidth_ofBool_getLsbD
  calc hdr = hdr &&& (0xFFFFFFFE ||| 0x00000001) := (BitVec.and_allOnes (x := hdr)).symm
    _ = (hdr &&& 0xFFFFFFFE) ||| (hdr &&& 0x00000001) := BitVec.and_or_distrib_left
    _ = 0x04000000 ||| (BitVec.ofBool (hdrEN hdr)).setWidth 32 := by rw [h, bit0]

theorem commandLength_of_multi {hdr : Word} (h : hdr &&& 0xFFFF0000 = 0x03000000) :
    commandLength hdr = 1 + hdrNJW hdr + hdrNSW hdr := by
  have hStep : hdr ≠ 0x01000000 := by rintro rfl; exact absurd h (by decide)
  have hDrive : hdr ≠ 0x02000000 := by rintro rfl; exact absurd h (by decide)
  rw [commandLength, if_neg hStep, if_neg hDrive, if_pos h]

theorem hdrNJW_le (hdr : Word) : hdrNJW hdr ≤ 255 := Nat.le_of_lt_succ (hdr.extractLsb' 8 8).isLt

theorem hdrNSW_le (hdr : Word) : hdrNSW hdr ≤ 255 := Nat.le_of_lt_succ (hdr.extractLsb' 0 8).isLt

theorem commandLength_pos (hdr : Word) : 1 ≤ commandLength hdr := by
  rw [commandLength_eq_words]
  cases classify hdr <;> simp only [HeaderClass.words] <;> omega

/-! Every header with its operand words is the encoding of a command. -/

/-- A header that is the header word of a well-formed command asks for as many operand words as that command has. -/
theorem length_operands {hdr : Word} {ops : List Word} (i : Instr) (hWf : i.wf = true) (hHeader : headerWord i = hdr)
    (h : ops.length + 1 = commandLength hdr) : ops.length = (operandWords i).length := by
  rw [← hHeader, commandLength_headerWord hWf, length_encode] at h
  exact Nat.succ.inj h

theorem exists_encode_of_multi {hdr : Word} {ops : List Word} (hRow : hdr &&& 0xFFFF0000 = 0x03000000)
    (h : ops.length + 1 = commandLength hdr) : ∃ i : Instr, i.wf = true ∧ encode i = hdr :: ops := by
  rw [commandLength_of_multi hRow] at h
  have hJoints : (ops.take (hdrNJW hdr)).length = hdrNJW hdr := by rw [List.length_take]; omega
  have hCounts : (ops.drop (hdrNJW hdr)).length = hdrNSW hdr := by rw [List.length_drop]; omega
  refine ⟨.driveMulti (ops.take (hdrNJW hdr)) (ops.drop (hdrNJW hdr)), ?_, ?_⟩
  · simp only [Instr.wf, countFits, hJoints, hCounts, hdrNJW_le, hdrNSW_le, decide_true, Bool.and_self]
  · rw [encode, headerWord, operandWords, hJoints, hCounts, ← multi_header_eq hRow, List.take_append_drop]

/-- R57, R72, R74: a header with as many operand words as it asks for is the encoding of a well-formed command. -/
theorem exists_encode_eq_cons {hdr : Word} {ops : List Word} (h : ops.length + 1 = commandLength hdr) :
    ∃ i : Instr, i.wf = true ∧ encode i = hdr :: ops := by
  cases hLegal : legalHeader hdr with
  | false =>
    obtain rfl := List.eq_nil_of_length_eq_zero (length_operands (.illegal hdr) (illegal_wf hLegal) rfl h)
    exact ⟨.illegal hdr, illegal_wf hLegal, rfl⟩
  | true =>
    rcases (legalHeader_iff_rows hdr).mp hLegal with rfl | rfl | hMulti | hEnergize | rfl
    · obtain ⟨j, d, rfl⟩ := List.length_eq_two.mp (length_operands (.step 0 0) rfl rfl h)
      exact ⟨.step j d, rfl, rfl⟩
    · obtain ⟨j, s, d, rfl⟩ := List.length_eq_three.mp (length_operands (.drive 0 0 0) rfl rfl h)
      exact ⟨.drive j s d, rfl, rfl⟩
    · exact exists_encode_of_multi hMulti h
    · have hHeader : headerWord (.setEnergized (hdrEN hdr)) = hdr := (energize_header_eq hEnergize).symm
      obtain rfl := List.eq_nil_of_length_eq_zero (length_operands (.setEnergized (hdrEN hdr)) rfl hHeader h)
      exact ⟨.setEnergized (hdrEN hdr), rfl, by rw [encode, hHeader]; rfl⟩
    · obtain ⟨j, rfl⟩ := List.length_eq_one_iff.mp (length_operands (.addressOf 0) rfl rfl h)
      exact ⟨.addressOf j, rfl, rfl⟩

/-! The decoder on the words of a command. -/

/-- R74: the command of a header and its operand words is the one they encode. -/
theorem decodeCommand_encode {i : Instr} (h : i.wf = true) : decodeCommand (headerWord i) (operandWords i) = i := by
  obtain ⟨hClass, _⟩ := headerRow i h
  rw [decodeCommand, hClass]
  cases i with
  | driveMulti js ss => simp only [Instr.headerClass, operandWords, List.take_left, List.drop_left, List.take_length]
  | _ => rfl

theorem decodeWords_encode_append {i : Instr} (h : i.wf = true) (rest : List Word) :
    decodeWords (encode i ++ rest) = .command i rest := by
  have hLength : commandLength (headerWord i) = (operandWords i).length + 1 := commandLength_headerWord h
  have hAll : commandLength (headerWord i) ≤ (operandWords i ++ rest).length + 1 := by rw [List.length_append]; omega
  rw [encode, List.cons_append, decodeWords_cons _ _ hAll, hLength, Nat.add_sub_cancel, List.take_left, List.drop_left,
    decodeCommand_encode h]

/-- R72, R77: a stream decodes only if its header is followed by the operand words it asks for. -/
theorem decodeWords_command {ws rest : List Word} {i : Instr} (h : decodeWords ws = .command i rest) :
    ∃ hdr ops tail, ws = hdr :: ops ++ tail ∧ ops.length + 1 = commandLength hdr := by
  cases ws with
  | nil => cases h
  | cons hdr tail =>
    by_cases hShort : tail.length + 1 < commandLength hdr
    · rw [decodeWords_short hdr tail hShort] at h
      cases h
    · have hPos := commandLength_pos hdr
      refine ⟨hdr, tail.take (commandLength hdr - 1), tail.drop (commandLength hdr - 1), ?_, ?_⟩
      · rw [List.cons_append, List.take_append_drop]
      · rw [List.length_take]
        omega

/-- Settles O1, from the command of the header and its operand words. -/
theorem decodeEncodeRoundTrip : Obligations.DecodeEncodeRoundTrip := fun _ rest h => decodeWords_encode_append h rest

/-- Settles O2: the words that were read encode some command, and O1 says that it is the one decoded. -/
theorem decodedWordsReencode : Obligations.DecodedWordsReencode := by
  intro ws rest i hDecode
  obtain ⟨hdr, ops, tail, rfl, hLength⟩ := decodeWords_command hDecode
  obtain ⟨i', hWf, hEncode⟩ := exists_encode_eq_cons hLength
  rw [← hEncode, decodeWords_encode_append hWf] at hDecode
  cases hDecode
  exact ⟨hWf, by rw [hEncode]⟩

/-- The longest command has two full lists (R72). -/
theorem length_encode_le {i : Instr} (h : i.wf = true) : (encode i).length ≤ maxCommandLength := by
  rw [length_encode, maxCommandLength]
  cases i with
  | driveMulti js ss =>
    simp only [Instr.wf, countFits, Bool.and_eq_true, decide_eq_true_eq] at h
    rw [operandWords, List.length_append]
    omega
  | _ => simp [operandWords]

/-- R61: a header with any operand words is that of some command, so its length is bounded by the longest command's. -/
theorem commandLength_le (hdr : Word) : commandLength hdr ≤ maxCommandLength := by
  have hPos := commandLength_pos hdr
  have hLength : (List.replicate (commandLength hdr - 1) (0 : Word)).length + 1 = commandLength hdr := by
    rw [List.length_replicate, Nat.sub_add_cancel hPos]
  obtain ⟨i, hWf, hEncode⟩ := exists_encode_eq_cons hLength
  rw [← hLength, ← List.length_cons, ← hEncode]
  exact length_encode_le hWf

/-- Settles O3: the row of a command's header counts its words, and every header is that of some command. -/
theorem commandLengthCountsWords : Obligations.CommandLengthCountsWords :=
  ⟨fun _ => commandLength_headerWord, fun hdr => ⟨commandLength_pos hdr, commandLength_le hdr⟩⟩

/-! Illegal headers. -/

/-- R70: an illegal header is a whole command of one word. -/
theorem decodeWords_illegal {hdr : Word} (h : legalHeader hdr = false) (rest : List Word) :
    commandLength hdr = 1 ∧ decodeWords (hdr :: rest) = .command (.illegal hdr) rest :=
  ⟨commandLength_headerWord (illegal_wf h), decodeWords_encode_append (illegal_wf h) rest⟩

/-- R71: the rows of R72 by their fields, the opcode and the reserved bits below it. -/
theorem legalHeader_iff_fields (hdr : Word) :
    legalHeader hdr = true ↔
      (hdr.extractLsb' 24 8 = 1 ∧ hdr.extractLsb' 0 24 = 0) ∨ (hdr.extractLsb' 24 8 = 2 ∧ hdr.extractLsb' 0 24 = 0) ∨
      (hdr.extractLsb' 24 8 = 3 ∧ hdr.extractLsb' 16 8 = 0) ∨ (hdr.extractLsb' 24 8 = 4 ∧ hdr.extractLsb' 1 23 = 0) ∨
      (hdr.extractLsb' 24 8 = 5 ∧ hdr.extractLsb' 0 24 = 0) := by
  rw [legalHeader_iff_rows, hdr_step_iff, hdr_drive_iff, hdr_multi_iff, hdr_energize_iff, hdr_addressOf_iff]

/-- Settles O5: no row has such an opcode with such reserved bits. -/
theorem reservedBitsMakeHeaderIllegal : Obligations.ReservedBitsMakeHeaderIllegal := by
  intro hdr rest hBits
  refine decodeWords_illegal (Bool.eq_false_iff.mpr fun hLegal => ?_) rest
  rw [legalHeader_iff_fields] at hLegal
  rcases hLegal with ⟨hOp, hZero⟩ | ⟨hOp, hZero⟩ | ⟨hOp, hZero⟩ | ⟨hOp, hZero⟩ | ⟨hOp, hZero⟩ <;>
    simp [hOp, hZero] at hBits

/-! Examples and pseudo-instructions. -/

/-- Settles O6 by running the assembler and the decoder on the eleven examples. -/
theorem encodingExamples : Obligations.EncodingExamples := by
  unfold Obligations.EncodingExamples
  decide

end Sys2Proof
end

section
/-! PROOFS. The words of a pseudo-instruction (spec/30_encoding.md R76), the commands without a plan (R70, R81), and acceptance of
what the decoder reads from the port (R77, R90, R140). -/

namespace Sys2Proof.Machine

/-- The header of MOVE's expansion: one joint word and one step-count word (R64, R76). -/
theorem headerWord_one_lane (j n : Word) : headerWord (.driveMulti [j] [n]) = 0x03000101 := by
  simp only [headerWord, List.length_singleton]
  decide

/-- Settles O7: the words of each expansion, written out. -/
theorem pseudoInstructionsExpand : Obligations.PseudoInstructionsExpand := fun j n =>
  ⟨rfl, rfl, rfl, rfl, by rw [AsmLine.words, encode, headerWord_one_lane]; rfl⟩

/-! What exec does with the two commands that have no plan. -/

theorem exec_illegal_idle {s : State} (h : s.seq = .idle) (hdr : Word) :
    exec (.illegal hdr) s = .next (s.diag .illegalCommand) :=
  congrArg Host.Outcome.next (State.whenIdle_idle _ h)

theorem exec_addressOf_idle {s : State} (h : s.seq = .idle) (j : Word) :
    exec (.addressOf j) s = .next (s.answerAddress (registryAddress s.cfg j)) :=
  congrArg Host.Outcome.next (State.whenIdle_idle _ h)

theorem registryAddress_of_joint (cfg : Config) {j : Word} {i : JointIdx} (h : j.toNat = i.val) :
    registryAddress cfg j = .ok cfg.params.addr[i] := by
  rw [registryAddress, jointOperand_some.mpr h]

theorem registryAddress_of_invalid (cfg : Config) {j : Word} (h : 5 < j.toNat) :
    registryAddress cfg j = .error .invalidJointIndex := by
  rw [registryAddress, jointOperand_none.mpr h]

/-- Settles O4: the header is a command of one word, and its meaning is the diagnostic IllegalCommand. -/
theorem illegalHeaderIsOneWordCommand : Obligations.IllegalHeaderIsOneWordCommand := by
  intro hdr rest s hIllegal
  obtain ⟨hLength, hDecode⟩ := decodeWords_illegal hIllegal rest
  exact ⟨hLength, hDecode, fun hIdle => exec_illegal_idle hIdle hdr⟩

/-- Settles O18: the registry answers on both sides of the index check. -/
theorem addressOfAnswers : Obligations.AddressOfAnswers := by
  intro s j hIdle
  rw [exec_addressOf_idle hIdle]
  constructor
  · intro i hJoint
    rw [registryAddress_of_joint s.cfg hJoint]
    rfl
  · intro hInvalid
    rw [registryAddress_of_invalid s.cfg hInvalid]
    rfl

/-! Acceptance of what stands on the port. -/

theorem State.afterChoice_seq (s : State) : s.afterChoice.seq = s.seq := s.afterChoice_block.seq

theorem State.afterChoice_commandPort (s : State) : s.afterChoice.commandPort = s.commandPort := by
  obtain ⟨_, _, _, _, _, _, _, _, _, _, hPort, _⟩ := s.afterChoice_frame
  exact hPort

theorem step_of_accept {s : State} (hMove : s.nextMove = .accept) : step s = s.afterChoice.acceptTurn := by
  rw [step, hMove]
  rfl

/-- Settles O23: choosing the move leaves the block Idle and its port as it was. -/
theorem stepRunsDecodedInstruction : Obligations.StepRunsDecodedInstruction := by
  intro s i rest hMove hIdle hDecode
  rw [step_of_accept hMove]
  exact State.acceptTurn_of_command (s.afterChoice_seq.trans hIdle) (by rw [s.afterChoice_commandPort, hDecode])

/-- R77: the words of a command that are not all there are no command. -/
theorem decodeWords_take_encode {i : Instr} {n : Nat} (hWf : i.wf = true) (h : n < (encode i).length) :
    ∃ why, decodeWords ((encode i).take n) = .rejected why := by
  cases n with
  | zero => exact ⟨.noHeader, rfl⟩
  | succ m =>
    refine ⟨.partialCommand, decodeWords_short _ _ ?_⟩
    rw [commandLength_headerWord hWf, List.length_take]
    omega

/-- Acceptance with no whole command on the port is not enabled (R77). -/
theorem State.accept_disabled_of_rejected {s : State} {why : DecodeStop} (h : decodeWords s.commandPort = .rejected why) :
    s.enabled .accept = false := by
  simp only [State.enabled, State.commandWaits, h, Bool.and_false]

/-- Settles O9: what stands on the port is no command, so acceptance is not enabled. -/
theorem partialCommandWaits : Obligations.PartialCommandWaits := by
  refine ⟨fun _ _ => decodeWords_take_encode, fun s why hMove hDecode => ?_⟩
  rw [← s.afterChoice_commandPort] at hDecode
  rw [step_of_accept hMove]
  exact State.acceptTurn_of_disabled (State.accept_disabled_of_rejected hDecode)

/-! A port of whole commands. -/

/-- No command writes what waits on the port (R90). -/
theorem exec_commandPort {i : Instr} {s t : State} (h : exec i s = .next t) : t.commandPort = s.commandPort := by
  cases hSeq : s.seq with
  | busy k plan =>
    rw [exec_busy i hSeq] at h
    cases h
    rfl
  | idle =>
    obtain ⟨u, hExec, hCases⟩ := exec_idle_cases i hSeq
    rw [hExec] at h
    cases h
    rcases hCases with ⟨_, rfl⟩ | rfl | ⟨_, rfl⟩ | ⟨_, _, _, rfl, _⟩ <;> rfl

/-- R70, R140: what decodes from a port of whole commands is the first of them, and whole commands are left. -/
theorem WholeCommands.decode {port rest : List Word} {i : Instr} (h : WholeCommands port)
    (hDecode : decodeWords port = .command i rest) : port = encode i ++ rest ∧ WholeCommands rest := by
  obtain ⟨is, hAll, rfl⟩ := h
  cases is with
  | nil => cases hDecode
  | cons i' is =>
    obtain ⟨⟨hWf, _⟩, hRest⟩ := List.forall_mem_cons.mp hAll
    rw [List.flatMap_cons, decodeWords_encode_append hWf] at hDecode
    cases hDecode
    exact ⟨rfl, is, hRest, rfl⟩

/-- Settles O24: of the moves that present nothing, acceptance alone touches the port, and it takes the first command off. -/
theorem wholeCommandsStayWhole : Obligations.WholeCommandsStayWhole := by
  intro s t hWhole hStep hWords hByte
  have same : t.commandPort = s.afterChoice.commandPort → WholeCommands t.commandPort ∧ t.commandPort = s.commandPort := by
    intro hPort
    rw [hPort, s.afterChoice_commandPort]
    exact ⟨hWhole, rfl⟩
  rcases step_cases hStep with ⟨ws, hMove, _⟩ | ⟨b, hMove, _⟩ | ⟨hMove, hAccept⟩ | ⟨_, rfl⟩ | ⟨_, _, rfl⟩ | ⟨_, rfl⟩
  · exact absurd hMove (hWords ws)
  · exact absurd hMove (hByte b)
  · rcases hAccept with rfl | ⟨hIdle, i, rest, hDecode, hExec⟩
    · exact (same rfl).imp_right .inl
    · rw [s.afterChoice_seq] at hIdle
      rw [s.afterChoice_commandPort] at hDecode
      obtain ⟨hPort, hRest⟩ := hWhole.decode hDecode
      have hTaken : t.commandPort = rest := exec_commandPort hExec
      exact ⟨hTaken ▸ hRest, .inr ⟨hMove, hIdle, i, rest, hPort, hTaken,
        stepRunsDecodedInstruction s i rest hMove hIdle hDecode⟩⟩
  · obtain ⟨_, _, hPort, _⟩ := s.afterChoice.sequencerTurn_frame
    exact (same hPort).imp_right .inl
  · exact (same rfl).imp_right .inl
  · exact (same rfl).imp_right .inl

/-! A table word. -/

/-- The words of a table word are its header and as many more as the header asks for, so they encode a command (R72). -/
theorem exists_encode_eq_tableWords (nbits w : Nat) : ∃ i : Instr, i.wf = true ∧ encode i = tableWords nbits w := by
  obtain ⟨n, hLength⟩ := Nat.exists_eq_add_of_le' (commandLength_pos (tableWord nbits w 0))
  obtain ⟨i, hWf, hEncode⟩ := exists_encode_eq_cons (hdr := tableWord nbits w 0)
    (ops := (List.range n).map fun k => tableWord nbits w (k + 1)) (by rw [hLength, List.length_map, List.length_range])
  refine ⟨i, hWf, hEncode.trans ?_⟩
  rw [tableWords, hLength, List.range_succ_eq_map, List.map_cons, List.map_map]
  rfl

theorem decodeTableWord_of_encode {nbits w : Nat} {i : Instr} (hWf : i.wf = true) (h : encode i = tableWords nbits w) :
    decodeTableWord nbits w = some i := by
  have hDecode := decodeWords_encode_append hWf []
  rw [List.append_nil] at hDecode
  rw [decodeTableWord, decodeBytes, wordsOfBytes_flatMap_bytesOfWord, ← h, hDecode]

/-- Presenting a command to a block made Idle, with acceptance scheduled, runs it in the next step (R90). -/
theorem step_withCommand {i : Instr} (hWf : i.wf = true) (s : State) :
    step (s.withCommand (encode i)) = exec i { s with seq := .idle } := by
  rw [step_of_agenda (s := s.withCommand (encode i)) rfl]
  exact State.acceptTurn_of_command (s := { s with seq := .idle, commandPort := encode i ++ s.commandPort }) rfl
    (decodeWords_encode_append hWf s.commandPort)

/-- Settles O25: the words of the table word encode a command, which the decoder reads and the next step runs. -/
theorem fetchWordRunsTableInstruction : Obligations.FetchWordRunsTableInstruction := by
  intro nbits w
  obtain ⟨i, hWf, hEncode⟩ := exists_encode_eq_tableWords nbits w
  refine ⟨i, decodeTableWord_of_encode hWf hEncode, fun s => ?_⟩
  rw [State.withFetchWord, ← hEncode]
  exact step_withCommand hWf s

end Sys2Proof.Machine
end

section
/-! PROOFS. What validation reads (spec/40_registry.md R81, R90): the operands and `motors_off`, and the address table for ADDRESS_OF
alone. Two Idle blocks that agree on these answer a command alike. -/

namespace Sys2Proof.Machine

/-- Alike in what the acceptance of a command decides: the sequencer state and the two response registers (R90). -/
def SameOutcome (s t : State) : Prop := s.seq = t.seq ∧ s.status = t.status ∧ s.data = t.data

/-! Once `validate` has answered, only the sequencer state of the old state is kept (R81, R90). -/

theorem SameOutcome.diag {s t : State} (h : s.seq = t.seq) (e : Diagnostic) : SameOutcome (s.diag e) (t.diag e) :=
  ⟨h, rfl, rfl⟩

theorem SameOutcome.conclude {s t : State} (h : s.seq = t.seq) (k : Kind) (v : Except Diagnostic (List MicroOp)) :
    SameOutcome (s.conclude k v) (t.conclude k v) := by
  match v with
  | .error e => exact SameOutcome.diag h e
  | .ok [] => exact ⟨h, rfl, rfl⟩
  | .ok (op :: ops) => exact ⟨rfl, rfl, rfl⟩

theorem SameOutcome.answerAddress {s t : State} (h : s.seq = t.seq) (r : Except Diagnostic Byte) :
    SameOutcome (s.answerAddress r) (t.answerAddress r) := by
  cases r with
  | error e => exact SameOutcome.diag h e
  | ok b => exact ⟨h, rfl, rfl⟩

/-- An act of acceptance whose outcome rests on the sequencer state alone has one outcome on any two Idle blocks. -/
theorem SameOutcome.whenIdle {s t : State} {act act' : State → State} (hs : s.seq = .idle) (ht : t.seq = .idle)
    (h : s.seq = t.seq → SameOutcome (act s) (act' t)) : SameOutcome (s.whenIdle act) (t.whenIdle act') := by
  rw [State.whenIdle_idle act hs, State.whenIdle_idle act' ht]
  exact h (hs.trans ht.symm)

theorem SameOutcome.acceptPlan {s t : State} (hs : s.seq = .idle) (ht : t.seq = .idle) (k : Kind)
    {v v' : Except Diagnostic (List MicroOp)} (h : v = v') : SameOutcome (s.acceptPlan k v) (t.acceptPlan k v') := by
  subst h
  exact SameOutcome.whenIdle hs ht fun hSeq => SameOutcome.conclude hSeq k v

/-- The registry reads nothing of the configuration but the address table (R79, R82). -/
theorem registryAddress_congr {c d : Config} (h : c.params.addr = d.params.addr) (j : Word) :
    registryAddress c j = registryAddress d j := by
  simp only [registryAddress, h]

/-- Settles O22: each command's arm hands on an outcome of `validate` that is the same for both states; the three motions read
`motors_off`, ADDRESS_OF the table, the other two only their operands. -/
theorem validationReadsOnlyMotorsOff : Obligations.ValidationReadsOnlyMotorsOff := by
  intro i s t s' t' hs ht hOff hAddr hExecS hExecT
  change SameOutcome s' t'
  cases i with
  | step j d =>
    cases hExecS; cases hExecT
    exact SameOutcome.acceptPlan hs ht .step (congrArg (validateStep j d) hOff)
  | drive j n d =>
    cases hExecS; cases hExecT
    exact SameOutcome.acceptPlan hs ht .drive (congrArg (validateDrive j n d) hOff)
  | driveMulti js ss =>
    cases hExecS; cases hExecT
    exact SameOutcome.acceptPlan hs ht .driveMulti (congrArg (validateDriveMulti js ss) hOff)
  | setEnergized en =>
    cases hExecS; cases hExecT
    exact SameOutcome.acceptPlan hs ht .setEnergized rfl
  | addressOf j =>
    cases hExecS; cases hExecT
    have hRegistry : registryAddress s.cfg j = registryAddress t.cfg j := registryAddress_congr (hAddr ⟨j, rfl⟩) j
    rw [hRegistry]
    exact SameOutcome.whenIdle hs ht fun hSeq => SameOutcome.answerAddress hSeq (registryAddress t.cfg j)
  | illegal hdr =>
    cases hExecS; cases hExecT
    exact SameOutcome.whenIdle hs ht fun hSeq => SameOutcome.diag hSeq .illegalCommand

end Sys2Proof.Machine
end

section
/-! PROOFS. The block's own transitions (spec/41_motion.md R84, R86, R87, R88, R89, R103): the step that takes the sequencer's turn,
for each head of the plan. -/

namespace Sys2Proof.Machine

section

variable {s : State} {k : Kind} {op : MicroOp} {rest : List MicroOp}

theorem SameBlock.headEnabled {t : State} (h : SameBlock s t) (op : MicroOp) : s.headEnabled op = t.headEnabled op :=
  h.read (State.headEnabled op)

theorem State.gateOpen_iff : s.gateOpen = true ↔ s.last + s.tMin ≤ s.now := decide_eq_true_iff

/-- A pulse may be performed exactly when the gate is open, SetOff always (R84, R88). -/
theorem State.headEnabled_iff : s.headEnabled op = true ↔ (op.isPulse = true → s.last + s.tMin ≤ s.now) := by
  rw [State.headEnabled, Bool.or_eq_true, State.gateOpen_iff]
  cases op.isPulse <;> simp

theorem State.sequencerTurn_of_enabled (h : s.seq = .busy k (op :: rest)) (hHead : s.headEnabled op = true) :
    s.sequencerTurn = s.performHead k op rest := by
  rw [State.sequencerTurn_of_head h, if_pos hHead]

theorem State.sequencerTurn_of_held (h : s.seq = .busy k (op :: rest)) (hHead : ¬ s.headEnabled op = true) :
    s.sequencerTurn = s := by
  rw [State.sequencerTurn_of_head h, if_neg hHead]

theorem step_of_sequencer (hMove : s.nextMove = .sequencer) : step s = .next s.afterChoice.sequencerTurn := by
  rw [step, hMove]
  rfl

/-- The step that performs the head of the plan (R88). -/
theorem step_of_head (hMove : s.nextMove = .sequencer) (h : s.seq = .busy k (op :: rest))
    (hHead : op.isPulse = true → s.last + s.tMin ≤ s.now) : step s = .next (s.afterChoice.performHead k op rest) := by
  have hEnabled : s.afterChoice.headEnabled op = true := by
    rw [s.afterChoice_block.headEnabled]
    exact State.headEnabled_iff.mpr hHead
  rw [step_of_sequencer hMove, State.sequencerTurn_of_enabled (s.afterChoice_seq.trans h) hEnabled]

theorem State.advance_joint_of_ne (s : State) {i j : JointIdx} (d : Dir) (h : i ≠ j) :
    (s.advance j d).joints[i] = s.joints[i] := by
  have hIndex : j.val ≠ i.val := fun e => h (Fin.ext e.symm)
  simp only [State.advance_joints, Fin.getElem_fin, Vector.getElem_set, if_neg hIndex]

/-- A strobe as the head of the plan is a pulse of its byte and nothing else (R87). -/
theorem State.performHead_strobeOp (s : State) (k : Kind) (j : JointIdx) (on : Bool) (rest : List MicroOp) :
    s.performHead k (.strobeOp j on) rest = { s.pulse (s.strobeByte j on) with seq := .busy k rest } := by
  rw [State.performHead, State.perform, State.strobeOp_eq_pulse]

end

/-- Settles O27: the turn is StepOp's `advance` and the pulse of the byte that the new phase composes. -/
theorem stepOpTransition : Obligations.StepOpTransition := by
  intro s k j d rest hMove hBusy hGate
  obtain ⟨hCfg, hJoints, _, _, _, _, _, _, hLog, hNow, _⟩ := s.afterChoice_frame
  have hPhase := s.afterChoice.stepOp_phase j j d
  have hPos := s.afterChoice.stepOp_pos j j d
  rw [if_pos rfl, s.afterChoice_block.phase] at hPhase
  rw [if_pos rfl, s.afterChoice_block.pos, s.posWidth_congr _ hCfg] at hPos
  refine ⟨_, (s.afterChoice.advance j d).stepByte j, step_of_head hMove hBusy fun _ => hGate, ?_, ?_, ?_, ?_, ?_, ?_, ?_⟩
  · rw [State.advance_stepByte, s.afterChoice_block.phase, ← hPhase]
    simp only [State.addr, State.phasePattern, hCfg]
    rfl
  · exact (congrArg (fun p : PhaseIdx => (p.val : Int)) hPhase).trans (advancePhase_val _ _)
  · intro hWidth
    rw [hWidth] at hPos
    exact hPos
  · intro n hWidth
    rw [hWidth] at hPos
    exact hPos
  · exact fun i => (s.afterChoice.stepOp_energized j i d).trans (s.afterChoice_block.energized i)
  · intro i hi
    rw [← hJoints]
    exact s.afterChoice.advance_joint_of_ne d hi
  · rw [← hLog, ← hNow]
    simp [State.performHead, State.perform, State.stepOp, State.pulse, State.portWrite, State.advance, enableBit]

/-- Settles O28: the turn is one pulse of the strobe's byte. -/
theorem strobeOpTransition : Obligations.StrobeOpTransition := by
  intro s k j on rest b hMove hBusy hGate hByte
  obtain ⟨_, _, _, _, _, _, _, _, hLog, hNow, _⟩ := s.afterChoice_frame
  have hStrobe : s.afterChoice.strobeByte j on = b :=
    (s.afterChoice_block.read (State.strobeByte · j on)).trans hByte.symm
  rw [step_of_head hMove hBusy fun _ => hGate, State.performHead_strobeOp, hStrobe, ← hLog, ← hNow]
  simp [State.pulse, State.portWrite, enableBit]

/-- Settles O29: SetOff is no pulse, so its turn waits for no gate. -/
theorem setOffTransition : Obligations.SetOffTransition := by
  intro s k b rest hMove hBusy
  refine ⟨_, step_of_head hMove hBusy nofun, fun j => ⟨State.setOff_energized _ j b, ?_, ?_⟩, rfl⟩
  · exact (State.setOff_phase _ j b).trans (s.afterChoice_block.phase j)
  · exact (State.setOff_pos _ j b).trans (s.afterChoice_block.pos j)

/-- Settles O30: a head that is not SetOff is a pulse, and a pulse is held at the closed gate. -/
theorem closedGateHolds : Obligations.ClosedGateHolds := by
  intro s k op rest hMove hBusy hPulse hGate
  have hHeld : ¬ s.afterChoice.headEnabled op = true := by
    rw [s.afterChoice_block.headEnabled, State.headEnabled_iff]
    cases op with
    | stepOp j d => exact fun h => absurd (h rfl) (Nat.not_le.mpr hGate)
    | strobeOp j on => exact fun h => absurd (h rfl) (Nat.not_le.mpr hGate)
    | setOff b => exact absurd rfl (hPulse b)
  rw [step_of_sequencer hMove, State.sequencerTurn_of_held (s.afterChoice_seq.trans hBusy) hHeld]

/-- Settles O31: the turn of an empty plan is its completion. -/
theorem completionTransition : Obligations.CompletionTransition := by
  intro s k hMove hBusy
  rw [step_of_sequencer hMove, State.sequencerTurn_of_empty (s.afterChoice_seq.trans hBusy)]
  rfl

end Sys2Proof.Machine
end

section
/-! PROOFS. A plan performed as a whole (spec/41_motion.md R86, R99; spec/10_state.md R22, R23): where it leaves each joint, which
joints it leaves alone, and what else it depends on. -/

namespace Sys2Proof.Machine

/-! One micro-operation, joint by joint. -/

theorem State.perform_cfg (s : State) (op : MicroOp) : (s.perform op).cfg = s.cfg := by
  obtain ⟨hCfg, _⟩ := s.perform_frame op
  exact hCfg

/-- Only a StepOp on the joint moves its position (R86, R87, R103). -/
theorem State.perform_pos (s : State) (op : MicroOp) (j : JointIdx) :
    (∃ d, op = .stepOp j d ∧ (s.perform op).pos j = wrapPosition s.posWidth (s.pos j + d.delta)) ∨
    ((∀ d, op ≠ .stepOp j d) ∧ (s.perform op).pos j = s.pos j) := by
  rcases s.performHead_joint .step op [] j with ⟨d, hOp, _, hPos⟩ | ⟨hOp, _, hPos⟩
  · exact .inl ⟨d, hOp, hPos⟩
  · exact .inr ⟨hOp, hPos⟩

/-- The net steps of a head on a joint: its direction's `delta` for a StepOp on that joint, none for any other head. -/
theorem netSteps_cons_stepOp (j : JointIdx) (d : Dir) (ops : List MicroOp) :
    netSteps j (.stepOp j d :: ops) = d.delta + netSteps j ops := by
  rw [netSteps, if_pos rfl]

theorem netSteps_cons_of_ne {j : JointIdx} {op : MicroOp} (h : ∀ d, op ≠ .stepOp j d) (ops : List MicroOp) :
    netSteps j (op :: ops) = netSteps j ops := by
  cases op with
  | stepOp i d =>
    have hij : i ≠ j := fun e => h d (e ▸ rfl)
    rw [netSteps, if_neg hij, zero_add]
  | strobeOp i on => rfl
  | setOff b => rfl

/-- A StepOp on another joint leaves the whole entry of the joint alone (R86). -/
theorem State.perform_joint_of_ne (s : State) {op : MicroOp} {j : JointIdx} (hStep : op.isStep = true)
    (h : ∀ d, op ≠ .stepOp j d) : (s.perform op).joints[j] = s.joints[j] := by
  obtain ⟨i, d, rfl⟩ := op.isStep_iff.mp hStep
  exact s.advance_joint_of_ne d fun e => h d (e ▸ rfl)

/-! Positions (R23). -/

/-- A counter holds what fits it exactly. -/
theorem wrapPosition_of_fits {w : PosWidth} (hw : ∀ n, w = .bits n → 2 ≤ n) {x : Int} (h : positionFits w x) :
    wrapPosition w x = x := by
  cases w with
  | unbounded => rfl
  | bits n =>
    obtain ⟨m, rfl⟩ : ∃ m, n = m + 1 := ⟨n - 1, by have := hw n rfl; omega⟩
    obtain ⟨hLow, hHigh⟩ := h
    have hPow : ((2 ^ (m + 1) : Nat) : Int) = 2 * 2 ^ m := by push_cast; ring
    rw [Nat.add_sub_cancel] at hLow hHigh
    exact Int.bmod_eq_of_le (by omega) (by omega)

/-- Wrapping on the way changes nothing of what is wrapped at the end. -/
theorem wrapPosition_wrapPosition_add (w : PosWidth) (x y : Int) :
    wrapPosition w (wrapPosition w x + y) = wrapPosition w (x + y) := by
  cases w with
  | unbounded => rfl
  | bits n => exact Int.bmod_add_bmod

/-- A position after a plan is the position before it and the net number of steps, as far as the counter goes (R23, R86). -/
theorem wrapPosition_performAll_pos (plan : List MicroOp) (s : State) (j : JointIdx) :
    wrapPosition s.posWidth ((performAll plan s).pos j) = wrapPosition s.posWidth (s.pos j + netSteps j plan) := by
  induction plan generalizing s with
  | nil => rw [netSteps, add_zero]; rfl
  | cons op ops ih =>
    have hNext := ih (s.perform op)
    rw [s.posWidth_congr _ (s.perform_cfg op)] at hNext
    rw [performAll_cons, hNext]
    rcases s.perform_pos op j with ⟨d, rfl, hPos⟩ | ⟨hOther, hPos⟩
    · rw [hPos, wrapPosition_wrapPosition_add, netSteps_cons_stepOp, add_assoc]
    · rw [hPos, netSteps_cons_of_ne hOther]

/-- A position the counter can hold before a plan, or that the plan writes, is one the counter can hold after it. -/
theorem positionFits_performAll {plan : List MicroOp} {s : State} {j : JointIdx}
    (h : positionFits s.posWidth (s.pos j) ∨ ∃ d, .stepOp j d ∈ plan) :
    positionFits s.posWidth ((performAll plan s).pos j) := by
  induction plan generalizing s with
  | nil => exact h.resolve_right nofun
  | cons op ops ih =>
    rw [performAll_cons, ← s.posWidth_congr _ (s.perform_cfg op)]
    apply ih
    rw [s.posWidth_congr _ (s.perform_cfg op)]
    rcases s.perform_pos op j with ⟨d, _, hPos⟩ | ⟨hOther, hPos⟩
    · left
      rw [hPos]
      exact positionFits_wrapPosition (fun n => posWidth_two_le s) _
    · rw [hPos]
      refine h.imp_right fun ⟨d, hMem⟩ => ⟨d, (List.mem_cons.mp hMem).resolve_left fun e => hOther d e.symm⟩

/-- The position a plan leaves (R23, R86, R99): exact when the counter is unbounded, else the representative it holds. -/
theorem performAll_pos {plan : List MicroOp} {s : State} {j : JointIdx}
    (h : positionFits s.posWidth (s.pos j) ∨ ∃ d, .stepOp j d ∈ plan) :
    (performAll plan s).pos j = wrapPosition s.posWidth (s.pos j + netSteps j plan) := by
  rw [← wrapPosition_performAll_pos, wrapPosition_of_fits (fun n => posWidth_two_le s) (positionFits_performAll h)]

theorem performAll_pos_unbounded {s : State} (h : s.posWidth = .unbounded) (plan : List MicroOp) (j : JointIdx) :
    (performAll plan s).pos j = s.pos j + netSteps j plan := by
  rw [performAll_pos (.inl (by rw [h]; trivial)), h, wrapPosition]

/-- A plan of StepOps leaves every joint alone that it does not name (R86). -/
theorem performAll_joint_of_not_mem {plan : List MicroOp} {s : State} {j : JointIdx}
    (hSteps : ∀ op ∈ plan, op.isStep = true) (h : ∀ d, .stepOp j d ∉ plan) :
    (performAll plan s).joints[j] = s.joints[j] := by
  induction plan generalizing s with
  | nil => rfl
  | cons op ops ih =>
    obtain ⟨hStep, hRest⟩ := List.forall_mem_cons.mp hSteps
    rw [performAll_cons, ih hRest fun d hMem => h d (List.mem_cons_of_mem op hMem)]
    exact s.perform_joint_of_ne hStep fun d e => h d (e ▸ List.mem_cons_self)

/-! The same step again and again (R99). -/

theorem netSteps_replicate (n : Nat) (j : JointIdx) (d : Dir) :
    netSteps j (List.replicate n (.stepOp j d)) = n * d.delta := by
  induction n with
  | zero => simp [netSteps]
  | succ n ih =>
    rw [List.replicate_succ, netSteps_cons_stepOp, ih]
    push_cast
    ring

theorem performAll_replicate_joint_of_ne (n : Nat) {i j : JointIdx} (d : Dir) (s : State) (h : i ≠ j) :
    (performAll (List.replicate n (.stepOp j d)) s).joints[i] = s.joints[i] := by
  refine performAll_joint_of_not_mem (fun op hMem => ?_) fun d' hMem => ?_
  · rw [List.eq_of_mem_replicate hMem]
    rfl
  · exact h (MicroOp.stepOp.inj (List.eq_of_mem_replicate hMem)).1

/-- Four steps are one turn of the phase (R22, R99(a)). -/
theorem performAll_four_steps_phase (j : JointIdx) (d : Dir) (s : State) :
    (performAll (List.replicate 4 (.stepOp j d)) s).phase j = s.phase j := by
  have hTurn := performAll_phase (List.replicate 4 (.stepOp j d)) s j
  rw [netSteps_replicate] at hTurn
  have := (s.phase j).isLt
  apply Fin.ext
  omega

/-- Settles O48: phase and position count the net steps of the plan, which are `n` times the direction's `delta`. -/
theorem repeatedStepsCount : Obligations.RepeatedStepsCount := by
  intro s j d n hWidth
  refine ⟨⟨?_, ?_, fun i hi => performAll_replicate_joint_of_ne n d s hi⟩, performAll_four_steps_phase j d s⟩
  · rw [performAll_phase, netSteps_replicate]
  · rw [performAll_pos_unbounded hWidth, netSteps_replicate]

end Sys2Proof.Machine
end

section
/-! PROOFS. The rounds of DRIVE_MULTI (spec/41_motion.md R94, R95, R99): the plan as a concatenation over rounds and lanes, and what
adds up over it. -/

namespace Sys2Proof.Machine

/-! The largest magnitude (R13, R94). -/

theorem maxMagnitude_cons (l : Lane) (ls : List Lane) :
    maxMagnitude (l :: ls) = max l.2.natAbs (maxMagnitude ls) := rfl

theorem natAbs_le_maxMagnitude {lanes : List Lane} {l : Lane} (h : l ∈ lanes) : l.2.natAbs ≤ maxMagnitude lanes := by
  induction lanes with
  | nil => cases h
  | cons l' ls ih =>
    rw [maxMagnitude_cons]
    rcases List.mem_cons.mp h with rfl | hMem
    · exact le_max_left _ _
    · exact (ih hMem).trans (le_max_right _ _)

theorem exists_natAbs_eq_maxMagnitude {lanes : List Lane} (h : lanes ≠ []) :
    ∃ l ∈ lanes, l.2.natAbs = maxMagnitude lanes := by
  induction lanes with
  | nil => exact absurd rfl h
  | cons l ls ih =>
    rw [maxMagnitude_cons]
    rcases le_total (maxMagnitude ls) l.2.natAbs with hLess | hMore
    · exact ⟨l, List.mem_cons_self, (max_eq_left hLess).symm⟩
    · by_cases hNil : ls = []
      · subst hNil
        exact ⟨l, List.mem_cons_self, (max_eq_left (Nat.zero_le _)).symm⟩
      · obtain ⟨m, hMem, hMax⟩ := ih hNil
        exact ⟨m, List.mem_cons_of_mem l hMem, hMax.trans (max_eq_right hMore).symm⟩

/-! The plan, round by round (R94). -/

theorem roundsFrom_eq_flatMap (lanes : List Lane) (n r : Nat) :
    roundsFrom lanes n r = (List.range' r n).flatMap (roundOps lanes) := by
  induction n generalizing r with
  | zero => rfl
  | succ n ih => rw [roundsFrom, ih, List.range'_succ, List.flatMap_cons]

theorem multiPlan_eq_flatMap (lanes : List Lane) :
    multiPlan lanes = (List.range (maxMagnitude lanes)).flatMap fun r => roundOps lanes (r + 1) := by
  rw [multiPlan, roundsFrom_eq_flatMap, List.range'_eq_map_range, List.flatMap_map]
  simp only [Nat.add_comm 1]

theorem roundOps_eq_flatMap (lanes : List Lane) (r : Nat) :
    roundOps lanes r = lanes.flatMap fun l => if r ≤ l.2.natAbs then [.stepOp l.1 (signDir l.2)] else [] := by
  rw [roundOps, List.filterMap_eq_flatMap_toList]
  congr 1
  funext l
  split <;> rfl

/-- Settles O15: rounds `1` to `R` over the lanes in list order, with `R` the largest magnitude. -/
theorem multiPlanIsRoundByRound : Obligations.MultiPlanIsRoundByRound := by
  intro lanes
  refine ⟨fun l => natAbs_le_maxMagnitude, exists_natAbs_eq_maxMagnitude, ?_, ?_⟩
  · rintro rfl
    rfl
  · simp only [multiPlan_eq_flatMap, roundOps_eq_flatMap]
    rfl

/-- An operation of the plan is a StepOp of one of the lanes. -/
theorem mem_multiPlan {lanes : List Lane} {op : MicroOp} (h : op ∈ multiPlan lanes) :
    ∃ l ∈ lanes, op = .stepOp l.1 (signDir l.2) := by
  simp only [multiPlan_eq_flatMap, roundOps_eq_flatMap, List.mem_flatMap] at h
  obtain ⟨_, _, l, hLane, hOp⟩ := h
  split at hOp
  · exact ⟨l, hLane, List.mem_singleton.mp hOp⟩
  · cases hOp

/-! Sums over the plan (R95, R99(e)). -/

theorem sum_map_roundOps (f : MicroOp → Int) (lanes : List Lane) (r : Nat) :
    ((roundOps lanes r).map f).sum =
      (lanes.map fun l => if r ≤ l.2.natAbs then f (.stepOp l.1 (signDir l.2)) else 0).sum := by
  induction lanes with
  | nil => rfl
  | cons l ls ih =>
    simp only [roundOps, List.filterMap_cons, List.map_cons, List.sum_cons] at ih ⊢
    split_ifs <;> simp [ih]

/-- In `n` rounds from round `r` on, a lane takes part as often as its magnitude reaches. -/
theorem sum_map_roundsFrom (f : MicroOp → Int) (lanes : List Lane) (n r : Nat) :
    ((roundsFrom lanes n r).map f).sum =
      (lanes.map fun l => ((min n (l.2.natAbs + 1 - r) : Nat) : Int) * f (.stepOp l.1 (signDir l.2))).sum := by
  induction n generalizing r with
  | zero => simp [roundsFrom]
  | succ n ih =>
    rw [roundsFrom, List.map_append, List.sum_append, sum_map_roundOps, ih, ← List.sum_map_add]
    congr 1
    refine List.map_congr_left fun l _ => ?_
    split_ifs with hRound
    · have hCount : min (n + 1) (l.2.natAbs + 1 - r) = min n (l.2.natAbs + 1 - (r + 1)) + 1 := by omega
      rw [hCount]
      push_cast
      ring
    · have hNone : l.2.natAbs + 1 - r = 0 ∧ l.2.natAbs + 1 - (r + 1) = 0 := by omega
      rw [hNone.1, hNone.2]
      simp

/-- Over the whole plan every lane takes part as often as its magnitude says. -/
theorem sum_map_multiPlan (f : MicroOp → Int) (lanes : List Lane) :
    ((multiPlan lanes).map f).sum = (lanes.map fun l => (l.2.natAbs : Int) * f (.stepOp l.1 (signDir l.2))).sum := by
  rw [multiPlan, sum_map_roundsFrom]
  congr 1
  refine List.map_congr_left fun l hLane => ?_
  have hMax := natAbs_le_maxMagnitude hLane
  rw [Nat.add_sub_cancel, min_eq_right hMax]

/-- What one micro-operation adds to the net steps of a joint. -/
def MicroOp.stepsOn (j : JointIdx) : MicroOp → Int
  | .stepOp i d => if i = j then d.delta else 0
  | .strobeOp _ _ => 0
  | .setOff _ => 0

theorem netSteps_eq_sum (j : JointIdx) (plan : List MicroOp) : netSteps j plan = (plan.map (MicroOp.stepsOn j)).sum := by
  induction plan with
  | nil => rfl
  | cons op ops ih => cases op <;> simp [netSteps, MicroOp.stepsOn, ih]

theorem natAbs_mul_delta_signDir (x : Int) : (x.natAbs : Int) * (signDir x).delta = x := by
  unfold signDir
  split <;> simp only [Dir.delta] <;> omega

theorem netSteps_multiPlan (j : JointIdx) (lanes : List Lane) : netSteps j (multiPlan lanes) = laneNet j lanes := by
  rw [netSteps_eq_sum, sum_map_multiPlan, laneNet]
  congr 1
  refine List.map_congr_left fun l _ => ?_
  simp only [MicroOp.stepsOn, mul_ite, mul_zero, natAbs_mul_delta_signDir]

/-- A plan of StepOps has a pulse for each of them (R29). -/
theorem pulseCount_of_steps {plan : List MicroOp} (h : ∀ op ∈ plan, op.isStep = true) : pulseCount plan = plan.length := by
  refine List.countP_eq_length.mpr fun op hMem => ?_
  obtain ⟨j, d, rfl⟩ := op.isStep_iff.mp (h op hMem)
  rfl

theorem isStep_of_mem_multiPlan {lanes : List Lane} {op : MicroOp} (h : op ∈ multiPlan lanes) : op.isStep = true := by
  obtain ⟨l, _, rfl⟩ := mem_multiPlan h
  rfl

theorem length_multiPlan (lanes : List Lane) : (multiPlan lanes).length = laneTotal lanes := by
  have hSum := sum_map_multiPlan (fun _ => 1) lanes
  simp only [List.map_const', List.sum_replicate, nsmul_eq_mul, mul_one] at hSum
  rw [laneTotal]
  zify
  simpa [Function.comp_def] using hSum

/-- Settles O16: both counts are sums over the plan, and the plan holds each lane as often as its magnitude says. -/
theorem multiPlanCounts : Obligations.MultiPlanCounts := by
  intro lanes
  exact ⟨(pulseCount_of_steps fun _ => isStep_of_mem_multiPlan).trans (length_multiPlan lanes),
    fun j => netSteps_multiPlan j lanes⟩

/-- A plan of rounds is empty exactly when every count is zero (R93). -/
theorem multiPlan_eq_nil_iff (lanes : List Lane) : multiPlan lanes = [] ↔ ∀ l ∈ lanes, l.2 = 0 := by
  rw [← List.length_eq_zero_iff, length_multiPlan, laneTotal, List.sum_eq_zero_iff, List.forall_mem_map]
  simp only [Int.natAbs_eq_zero]

end Sys2Proof.Machine
end

section
/-! PROOFS. Acceptance of the commands with a plan (spec/41_motion.md R90 to R93, R98; spec/42_energize.md R100, R101): what
`validate` answers, and the state that acceptance leaves. -/

namespace Sys2Proof.Machine

/-! Operands (R66, R68, R93). -/

theorem dirOperand_of_code {w : Word} {d : Dir} (h : w.toNat = dirCode d) : dirOperand w = some d := by
  cases d with
  | forward =>
    obtain rfl : w = 0 := BitVec.eq_of_toNat_eq h
    rfl
  | backward =>
    obtain rfl : w = 1 := BitVec.eq_of_toNat_eq h
    rfl

theorem jointOperands_of_map {js : List Word} {is : List JointIdx} (h : js.map BitVec.toNat = is.map Fin.val) :
    jointOperands js = some is := by
  induction js generalizing is with
  | nil =>
    obtain rfl : is = [] := List.map_eq_nil_iff.mp h.symm
    rfl
  | cons w ws ih =>
    cases is with
    | nil => cases h
    | cons i is =>
      obtain ⟨hHead, hTail⟩ := List.cons.inj h
      rw [jointOperands, jointOperand_some.mpr hHead, ih hTail]

/-- Words that are all in range name some list of joints. -/
theorem exists_joints_of_in_range {js : List Word} (h : ∀ j ∈ js, j.toNat ≤ 5) :
    ∃ is : List JointIdx, js.map BitVec.toNat = is.map Fin.val := by
  induction js with
  | nil => exact ⟨[], rfl⟩
  | cons w ws ih =>
    obtain ⟨hHead, hTail⟩ := List.forall_mem_cons.mp h
    obtain ⟨is, his⟩ := ih hTail
    exact ⟨⟨w.toNat, Nat.lt_succ_of_le hHead⟩ :: is, by rw [List.map_cons, List.map_cons, his]⟩

/-- Two lists that name the lanes of a DRIVE_MULTI: the lanes' counts are those of the second list. -/
theorem forall_lane_count_iff {is : List JointIdx} {ss : List Word} (hLength : is.length = ss.length) (P : Int → Prop) :
    (∀ l ∈ is.zip (ss.map stepCount), P l.2) ↔ ∀ w ∈ ss, P w.toInt := by
  have hCounts : (is.zip (ss.map stepCount)).map Prod.snd = ss.map stepCount :=
    List.map_snd_zip (by rw [List.length_map, hLength])
  calc (∀ l ∈ is.zip (ss.map stepCount), P l.2)
      ↔ ∀ x ∈ (is.zip (ss.map stepCount)).map Prod.snd, P x := List.forall_mem_map.symm
    _ ↔ ∀ x ∈ ss.map stepCount, P x := by rw [hCounts]
    _ ↔ ∀ w ∈ ss, P w.toInt := List.forall_mem_map

/-! What `validate` answers a valid command. -/

theorem validateStep_of_valid {j d : Word} {i : JointIdx} {dir : Dir} (hJoint : j.toNat = i.val)
    (hDir : d.toNat = dirCode dir) : validateStep j d false = .ok [.stepOp i dir] := by
  simp [validateStep, jointOperand_some.mpr hJoint, dirOperand_of_code hDir]

theorem validateDrive_of_valid {j n d : Word} {i : JointIdx} {dir : Dir} (hJoint : j.toNat = i.val)
    (hDir : d.toNat = dirCode dir) (hCount : 0 < n.toInt) :
    validateDrive j n d false = .ok (List.replicate n.toInt.toNat (.stepOp i dir)) := by
  have hPositive : ¬ stepCount n ≤ 0 := Int.not_le.mpr hCount
  simp only [validateDrive, jointOperand_some.mpr hJoint, dirOperand_of_code hDir, if_neg hPositive]
  rfl

theorem validateDriveMulti_of_valid {js ss : List Word} {is : List JointIdx}
    (hJoints : js.map BitVec.toNat = is.map Fin.val) (hLength : js.length = ss.length) :
    validateDriveMulti js ss false = .ok (multiPlan (is.zip (ss.map stepCount))) := by
  simp [validateDriveMulti, hLength, jointOperands_of_map hJoints]

/-! What acceptance makes of the answer (R90). -/

section

variable {s : State} {k : Kind}

theorem State.acceptPlan_error (h : s.seq = .idle) (e : Diagnostic) : s.acceptPlan k (.error e) = s.diag e :=
  State.whenIdle_idle _ h

theorem State.acceptPlan_nil (h : s.seq = .idle) : s.acceptPlan k (.ok []) = s.finishAtOnce :=
  State.whenIdle_idle _ h

theorem State.acceptPlan_plan (h : s.seq = .idle) {plan : List MicroOp} (hPlan : plan ≠ []) :
    s.acceptPlan k (.ok plan) = s.beginPlan k plan := by
  obtain ⟨op, ops, rfl⟩ := List.exists_cons_of_ne_nil hPlan
  exact State.whenIdle_idle _ h

end

theorem exec_step_of_valid {s : State} {j d : Word} {i : JointIdx} {dir : Dir} (hIdle : s.seq = .idle)
    (hJoint : j.toNat = i.val) (hDir : d.toNat = dirCode dir) (hOn : s.motorsOff = false) :
    exec (.step j d) s = .next (s.beginPlan .step [.stepOp i dir]) := by
  rw [exec, execStep, hOn, validateStep_of_valid hJoint hDir, State.acceptPlan_plan hIdle (List.cons_ne_nil _ _)]

theorem exec_drive_of_valid {s : State} {j n d : Word} {i : JointIdx} {dir : Dir} (hIdle : s.seq = .idle)
    (hJoint : j.toNat = i.val) (hDir : d.toNat = dirCode dir) (hCount : 0 < n.toInt) (hOn : s.motorsOff = false) :
    exec (.drive j n d) s = .next (s.beginPlan .drive (List.replicate n.toInt.toNat (.stepOp i dir))) := by
  have hPlan : List.replicate n.toInt.toNat (MicroOp.stepOp i dir) ≠ [] := by
    rw [ne_eq, List.replicate_eq_nil_iff]
    omega
  rw [exec, execDrive, hOn, validateDrive_of_valid hJoint hDir hCount, State.acceptPlan_plan hIdle hPlan]

/-- Acceptance of a valid DRIVE_MULTI is that of its rounds, of which there may be none (R93). -/
theorem exec_driveMulti_of_valid {s : State} {js ss : List Word} {is : List JointIdx}
    (hJoints : js.map BitVec.toNat = is.map Fin.val) (hLength : js.length = ss.length) (hOn : s.motorsOff = false) :
    exec (.driveMulti js ss) s = .next (s.acceptPlan .driveMulti (.ok (multiPlan (is.zip (ss.map stepCount))))) := by
  rw [exec, execDriveMulti, hOn, validateDriveMulti_of_valid hJoints hLength]

/-- SET_ENERGIZED has no `validate` that could refuse it (R100, R101, R105). -/
theorem exec_setEnergized_idle {s : State} (hIdle : s.seq = .idle) (en : Bool) :
    exec (.setEnergized en) s = .next (s.beginPlan .setEnergized (energizePlan en)) := by
  have hPlan : energizePlan en ≠ [] := List.cons_ne_nil _ _
  rw [exec, execSetEnergized, State.acceptPlan_plan hIdle hPlan]

theorem length_joints_eq {js ss : List Word} {is : List JointIdx} (hJoints : js.map BitVec.toNat = is.map Fin.val)
    (hLength : js.length = ss.length) : is.length = ss.length := by
  have h := congrArg List.length hJoints
  rw [List.length_map, List.length_map] at h
  exact h.symm.trans hLength

/-! The obligations. -/

/-- Settles O11: `validate` answers the one StepOp, and acceptance begins that plan. -/
theorem stepPlansOneStepOp : Obligations.StepPlansOneStepOp := fun _ _ _ _ _ => exec_step_of_valid

/-- Settles O12: `validate` answers as many StepOps as the count, which is positive, so there is a plan to begin. -/
theorem drivePlansItsSteps : Obligations.DrivePlansItsSteps := fun _ _ _ _ _ _ => exec_drive_of_valid

/-- Settles O13: a count that is not zero makes the rounds a plan that is not empty. -/
theorem driveMultiPlansItsRounds : Obligations.DriveMultiPlansItsRounds := by
  intro s js ss is hIdle hJoints hLength hSome hOn
  have hPlan : multiPlan (is.zip (ss.map stepCount)) ≠ [] := by
    obtain ⟨w, hMem, hCount⟩ := hSome
    rw [ne_eq, multiPlan_eq_nil_iff, forall_lane_count_iff (length_joints_eq hJoints hLength) (· = 0)]
    exact fun hZero => hCount (hZero w hMem)
  rw [exec_driveMulti_of_valid hJoints hLength hOn, State.acceptPlan_plan hIdle hPlan]
  rfl

/-- Settles O14: where every count is zero there are no rounds, so acceptance ends the command at once. -/
theorem driveMultiOfNothingCompletes : Obligations.DriveMultiOfNothingCompletes := by
  intro s js ss hIdle hRange hLength hZero hOn
  obtain ⟨is, hJoints⟩ := exists_joints_of_in_range hRange
  have hPlan : multiPlan (is.zip (ss.map stepCount)) = [] :=
    (multiPlan_eq_nil_iff _).mpr ((forall_lane_count_iff (length_joints_eq hJoints hLength) (· = 0)).mpr hZero)
  rw [exec_driveMulti_of_valid hJoints hLength hOn, hPlan, State.acceptPlan_nil hIdle]
  rfl

/-- Settles O17: acceptance begins the plan of SET_ENERGIZED, which is these seven operations. -/
theorem setEnergizedPlansSixPulses : Obligations.SetEnergizedPlansSixPulses := fun _ en hIdle =>
  exec_setEnergized_idle hIdle en

theorem State.idle_or_busy (s : State) : s.seq = .idle ∨ ∃ k plan, s.seq = .busy k plan := by
  cases s.seq with
  | idle => exact .inl rfl
  | busy k plan => exact .inr ⟨k, plan, rfl⟩

/-- Settles O20: acceptance of a command leaves a Busy block alone, and ends on an Idle one in a diagnostic, an answer or a plan, of
which only the diagnostic has a diagnostic's status. -/
theorem acceptanceMovesNothing : Obligations.AcceptanceMovesNothing := by
  intro i s
  rcases s.idle_or_busy with hIdle | ⟨k, plan, hBusy⟩
  · obtain ⟨t, hExec, hCases⟩ := exec_idle_cases i hIdle
    have hOK : statusOK ∉ ([0x01, 0x02, 0x03, 0x04, 0x05, 0x06] : List Byte) := by decide
    have hStatusBusy : statusBusy ∉ ([0x01, 0x02, 0x03, 0x04, 0x05, 0x06] : List Byte) := by decide
    refine ⟨t, hExec, ?_⟩
    rcases hCases with ⟨e, rfl⟩ | rfl | ⟨j, rfl⟩ | ⟨k, plan, _, rfl, _⟩
    · exact ⟨rfl, rfl, rfl, rfl, rfl, rfl, rfl, rfl, rfl, rfl, rfl, fun _ _ => rfl⟩
    · exact ⟨rfl, rfl, rfl, rfl, rfl, rfl, rfl, rfl, rfl, rfl, rfl, fun _ hStatus => absurd hStatus hOK⟩
    · exact ⟨rfl, rfl, rfl, rfl, rfl, rfl, rfl, rfl, rfl, rfl, rfl, fun _ hStatus => absurd hStatus hOK⟩
    · exact ⟨rfl, rfl, rfl, rfl, rfl, rfl, rfl, rfl, rfl, rfl, rfl, fun _ hStatus => absurd hStatus hStatusBusy⟩
  · refine ⟨s, exec_busy i hBusy, rfl, rfl, rfl, rfl, rfl, rfl, rfl, rfl, rfl, rfl, rfl, fun hIdle => ?_⟩
    rw [hBusy] at hIdle
    cases hIdle

/-! Motion with the motors off (R98, R112): each `validate` answers one of its diagnostics. -/

theorem validateStep_off (j d : Word) :
    ∃ e : Diagnostic, e.code ∈ [0x01, 0x02, 0x05] ∧ validateStep j d true = .error e := by
  cases hJoint : jointOperand j with
  | none => exact ⟨.invalidJointIndex, by decide, by simp only [validateStep, hJoint]⟩
  | some i =>
    cases hDir : dirOperand d with
    | none => exact ⟨.invalidDirection, by decide, by simp only [validateStep, hJoint, hDir]⟩
    | some dir => exact ⟨.motorsDisabled, by decide, by simp only [validateStep, hJoint, hDir, if_true]⟩

theorem validateDrive_off (j n d : Word) :
    ∃ e : Diagnostic, e.code ∈ [0x01, 0x02, 0x03, 0x05] ∧ validateDrive j n d true = .error e := by
  cases hJoint : jointOperand j with
  | none => exact ⟨.invalidJointIndex, by decide, by simp only [validateDrive, hJoint]⟩
  | some i =>
    cases hDir : dirOperand d with
    | none => exact ⟨.invalidDirection, by decide, by simp only [validateDrive, hJoint, hDir]⟩
    | some dir =>
      by_cases hCount : stepCount n ≤ 0
      · exact ⟨.invalidStepCount, by decide, by simp only [validateDrive, hJoint, hDir, if_pos hCount]⟩
      · exact ⟨.motorsDisabled, by decide, by simp only [validateDrive, hJoint, hDir, if_neg hCount, if_true]⟩

theorem validateDriveMulti_off (js ss : List Word) :
    ∃ e : Diagnostic, e.code ∈ [0x01, 0x04, 0x05] ∧ validateDriveMulti js ss true = .error e := by
  by_cases hLength : js.length = ss.length
  · cases hJoints : jointOperands js with
    | none => exact ⟨.invalidJointIndex, by decide, by simp [validateDriveMulti, hLength, hJoints]⟩
    | some is => exact ⟨.motorsDisabled, by decide, by simp [validateDriveMulti, hLength, hJoints]⟩
  · exact ⟨.lengthMismatch, by decide, by rw [validateDriveMulti, if_pos hLength]⟩

/-- A command whose `validate` refuses it with one of the diagnostics of `codes`. -/
theorem exec_refused {s : State} (hIdle : s.seq = .idle) {i : Instr} {k : Kind} {v : Except Diagnostic (List MicroOp)}
    (hExec : exec i s = .next (s.acceptPlan k v)) {codes : List Byte}
    (h : ∃ e : Diagnostic, e.code ∈ codes ∧ v = .error e) :
    ∃ c, c ∈ codes ∧ exec i s = .next { s with status := c, data := 0x00 } := by
  obtain ⟨e, hCode, rfl⟩ := h
  exact ⟨e.code, hCode, hExec.trans (congrArg Host.Outcome.next (State.acceptPlan_error hIdle e))⟩

/-- Settles O58: with the motors off each motion's `validate` refuses it, whatever its operands. -/
theorem motorsOffRefusesMotion : Obligations.MotorsOffRefusesMotion := by
  intro s j n d js ss hIdle hOff
  refine ⟨exec_refused hIdle rfl ?_, exec_refused hIdle rfl ?_, exec_refused hIdle rfl ?_⟩ <;> rw [hOff]
  · exact validateStep_off j d
  · exact validateDrive_off j n d
  · exact validateDriveMulti_off js ss

end Sys2Proof.Machine
end

section
/-! PROOFS. The life of a command under any schedule (spec/41_motion.md R88, R89, R95, R97, R99): how far it has come after any
number of its steps, and what it has done when it has completed. -/

namespace Sys2Proof.Machine

/-! Pulses and bytes of a plan. -/

theorem planBytes_append (a b : List MicroOp) (s : State) :
    planBytes (a ++ b) s = planBytes a s ++ planBytes b (performAll a s) := by
  induction a generalizing s with
  | nil => rfl
  | cons op ops ih =>
    rw [List.cons_append, planBytes_cons, ih, planBytes_cons op ops, List.append_assoc]
    rfl

/-- A plan pulses a byte for each of its pulses (R83, R95). -/
theorem length_planBytes (plan : List MicroOp) (s : State) : (planBytes plan s).length = pulseCount plan := by
  induction plan generalizing s with
  | nil => rfl
  | cons op ops ih =>
    rw [planBytes_cons, List.length_append, ih, pulseCount, pulseCount, List.countP_cons, Nat.add_comm]
    rcases s.perform_planBytes op with ⟨hPulse, b, hByte, _⟩ | ⟨hPulse, hByte, _⟩ <;> rw [hPulse, hByte] <;> rfl

theorem pulseWrites_append (ps qs : List Pulse) : pulseWrites (ps ++ qs) = pulseWrites ps ++ pulseWrites qs :=
  List.flatMap_append

theorem pulseWrites_singleton (p : Pulse) : pulseWrites [p] = p.writes := List.flatMap_singleton ..

theorem startsFrom_concat {t : Nat} {ps : List Pulse} {p : Pulse} (h : startsFrom t ps = true)
    (hFirst : ps = [] → t ≤ p.time) : startsFrom t (ps ++ [p]) = true := by
  cases ps with
  | nil => exact decide_eq_true (hFirst rfl)
  | cons q qs => exact h

/-! States alike but for the times (R86, R87, R103). -/

/-- Alike in the configuration, the joints, `motors_off`, the bus and the bytes written, whatever the times of the writes. -/
structure SameEngine (s t : State) : Prop where
  cfg : s.cfg = t.cfg
  joints : s.joints = t.joints
  motorsOff : s.motorsOff = t.motorsOff
  bus : s.bus = t.bus
  bytes : s.portLog.map Prod.snd = t.portLog.map Prod.snd

theorem SameEngine.refl (s : State) : SameEngine s s := ⟨rfl, rfl, rfl, rfl, rfl⟩

/-- No micro-operation reads a time. -/
theorem SameEngine.perform {s t : State} (h : SameEngine s t) (op : MicroOp) : SameEngine (s.perform op) (t.perform op) := by
  obtain ⟨hCfg, hJoints, hOff⟩ := State.perform_congr op h.cfg h.joints h.motorsOff
  have hBytes : planBytes [op] s = planBytes [op] t := planBytes_congr [op] h.cfg h.joints
  rcases s.perform_planBytes op with ⟨hPulse, b, hs, hBus, _, hLog⟩ | ⟨hPulse, _, hBus, _, hLog⟩ <;>
    rcases t.perform_planBytes op with ⟨hPulse', b', ht, hBus', _, hLog'⟩ | ⟨hPulse', _, hBus', _, hLog'⟩
  · obtain rfl : b = b' := List.singleton_inj.mp (hs.symm.trans (hBytes.trans ht))
    refine ⟨hCfg, hJoints, hOff, hBus.trans hBus'.symm, ?_⟩
    rw [hLog, hLog', List.map_append, List.map_append, h.bytes]
    rfl
  · exact absurd (hPulse.symm.trans hPulse') (by decide)
  · exact absurd (hPulse.symm.trans hPulse') (by decide)
  · exact ⟨hCfg, hJoints, hOff, hBus.trans (h.bus.trans hBus'.symm), by rw [hLog, hLog', h.bytes]⟩

/-! What a command has done. -/

/-- Between `s` and `u` the micro-operations `done` have been performed, at whatever times the gate and the schedule gave: the
engine is as if they had been performed at once, and the port has grown by their pulses, spaced, none before the gate of `s`
opened, the last of them at `last` (R27, R83, R84, R88). -/
structure Performed (s : State) (done : List MicroOp) (u : State) : Prop where
  engine : SameEngine u (performAll done s)
  later : s.now ≤ u.now
  pulses : ∃ ps : List Pulse, u.portLog = s.portLog ++ pulseWrites ps ∧ ps.map Pulse.byte = planBytes done s ∧
    spaced s.tMin ps = true ∧ startsFrom s.gateTime ps = true ∧ u.last = (ps.getLast?.map Pulse.time).getD s.last

theorem Performed.refl (s : State) : Performed s [] s :=
  ⟨.refl s, le_rfl, [], (List.append_nil _).symm, rfl, rfl, rfl, rfl⟩

theorem performAll_cfg (plan : List MicroOp) (s : State) : (performAll plan s).cfg = s.cfg := by
  induction plan generalizing s with
  | nil => rfl
  | cons op ops ih => exact (ih _).trans (s.perform_cfg op)

section

variable {s t u : State} {k : Kind} {done : List MicroOp}

theorem Performed.cfg (h : Performed s done u) : u.cfg = s.cfg := h.engine.cfg.trans (performAll_cfg done s)

theorem Performed.of_block (h : Performed s done u.block) : Performed s done u := { h with engine := { h.engine with } }

theorem Performed.to_block (h : Performed s done u) : Performed s done u.block := { h with engine := { h.engine with } }

theorem Performed.congr (same : SameBlock t u) (h : Performed s done u) : Performed s done t :=
  .of_block (same.symm ▸ h.to_block)

theorem Performed.hold (h : Performed s done u) {now : Nat} (hNow : u.now ≤ now) : Performed s done { u with now := now } :=
  { h with engine := { h.engine with }, later := h.later.trans hNow }

theorem Performed.complete (h : Performed s done u) : Performed s done u.complete := { h with engine := { h.engine with } }

/-- One more micro-operation: a pulse comes with the gate open, so it keeps its distance from the pulse before it (R84). -/
theorem Performed.performHead (h : Performed s done u) {op : MicroOp} (rest : List MicroOp)
    (hHead : u.headEnabled op = true) : Performed s (done ++ [op]) (u.performHead k op rest) := by
  have hEngine : SameEngine (u.performHead k op rest) (performAll (done ++ [op]) s) := by
    rw [performAll_append]
    exact { h.engine.perform op with }
  have hNow : s.now ≤ (u.performHead k op rest).now := by
    rw [State.performHead_now]
    exact h.later
  obtain ⟨ps, hLog, hBytes, hSpaced, hStart, hLast⟩ := h.pulses
  have hByte : planBytes [op] u = planBytes [op] (performAll done s) := planBytes_congr [op] h.engine.cfg h.engine.joints
  refine ⟨hEngine, hNow, ?_⟩
  rw [planBytes_append, ← hByte]
  rcases u.perform_planBytes op with ⟨hPulse, b, hb, _, hLast', hLog'⟩ | ⟨_, hNone, _, hLast', hLog'⟩
  · have hGate : u.last + s.tMin ≤ u.now := by
      rw [← s.tMin_congr u h.cfg]
      exact State.headEnabled_iff.mp hHead hPulse
    refine ⟨ps ++ [⟨u.now, b⟩], ?_, ?_, spaced_append hSpaced ?_, startsFrom_concat hStart ?_, ?_⟩
    · rw [pulseWrites_append, pulseWrites_singleton, ← List.append_assoc, ← hLog]
      exact hLog'
    · rw [List.map_append, hBytes, hb]
      rfl
    · intro q hq
      have hLastTime : u.last = q.time := by rw [hLast, Option.mem_def.mp hq]; rfl
      rwa [hLastTime] at hGate
    · rintro rfl
      rw [hLast] at hGate
      exact max_le h.later hGate
    · rw [List.getLast?_concat]
      exact hLast'
  · refine ⟨ps, hLog'.trans hLog, ?_, hSpaced, hStart, hLast'.trans hLast⟩
    rw [hBytes, hNone, List.append_nil]

end

/-- How far a command that began in `s` with the plan `plan` has come in `u`: it has performed the front of its plan, and is Busy
with the rest, or it has performed all of it and completed with OK (R88, R89, R97). -/
def Progress (s : State) (k : Kind) (plan : List MicroOp) (u : State) : Prop :=
  ∃ done rest, plan = done ++ rest ∧ Performed s done u ∧
    (u.seq = .busy k rest ∨ rest = [] ∧ u.seq = .idle ∧ u.status = statusOK ∧ u.data = 0x00)

/-- A step of a Busy block that is no reset lets time pass, performs the head of the plan, or completes the command. -/
theorem Progress.step {s t u : State} {k : Kind} {plan : List MicroOp} (h : Progress s k plan t)
    (hBusy : t.seq.isBusy = true) (hReset : t.nextMove ≠ .reset) (hStep : step t = .next u) : Progress s k plan u := by
  obtain ⟨done, rest, hPlan, hDone, hSeq | ⟨_, hIdle, _⟩⟩ := h
  · cases step_blockStep hStep with
    | hold now later same => exact ⟨done, rest, hPlan, .congr same (hDone.hold later), .inl (same.seq.trans hSeq)⟩
    | answer _ _ _ idle => rw [idle] at hBusy; cases hBusy
    | begin _ _ _ idle => rw [idle] at hBusy; cases hBusy
    | perform k' op ops _ busy enabled same =>
      obtain ⟨rfl, rfl⟩ : k = k' ∧ rest = op :: ops := Seq.busy.inj (hSeq.symm.trans busy)
      refine ⟨done ++ [op], ops, ?_, .congr same (hDone.performHead ops enabled), .inl same.seq⟩
      rw [hPlan, List.append_assoc]
      rfl
    | complete k' _ busy same =>
      obtain ⟨rfl, rfl⟩ : k = k' ∧ rest = [] := Seq.busy.inj (hSeq.symm.trans busy)
      exact ⟨done, [], hPlan, .congr same hDone.complete, .inr ⟨rfl, same.seq, same.status, same.read fun v => v.data⟩⟩
    | reset move => exact absurd move hReset
  · rw [hIdle] at hBusy
    cases hBusy

theorem BusySteps.progress {s u : State} {k : Kind} {plan : List MicroOp} (hBusy : s.seq = .busy k plan)
    (h : BusySteps s u) : Progress s k plan u := by
  induction h with
  | refl => exact ⟨[], plan, rfl, .refl s, .inl hBusy⟩
  | tail _ busy noReset last ih => exact ih.step busy noReset last

theorem BusySteps.completed {s u : State} {k : Kind} {plan : List MicroOp} (hBusy : s.seq = .busy k plan)
    (h : BusySteps s u) (hIdle : u.seq = .idle) : Performed s plan u ∧ u.status = statusOK ∧ u.data = 0x00 := by
  obtain ⟨done, rest, rfl, hDone, hSeq | ⟨rfl, _, hStatus, hData⟩⟩ := h.progress hBusy
  · rw [hSeq] at hIdle
    cases hIdle
  · rw [List.append_nil]
    exact ⟨hDone, hStatus, hData⟩

/-- Settles O49: the pulses of the part of the plan that has been performed, which is all of it at completion. -/
theorem pulsesOfPlanUnderAnySchedule : Obligations.PulsesOfPlanUnderAnySchedule := by
  intro s u k plan hBusy hSteps
  obtain ⟨done, rest, rfl, hDone, hStage⟩ := hSteps.progress hBusy
  obtain ⟨ps, hLog, hBytes, hSpaced, hStart, _⟩ := hDone.pulses
  refine ⟨ps, hLog, hSpaced, hStart, ?_, fun hIdle => ?_⟩
  · rw [hBytes, planBytes_append]
    exact List.prefix_append _ _
  · obtain rfl : rest = [] := by
      rcases hStage with hSeq | ⟨hRest, _⟩
      · rw [hSeq] at hIdle
        cases hIdle
      · exact hRest
    rw [List.append_nil]
    refine ⟨hBytes, ?_⟩
    rw [← length_planBytes done s, ← hBytes, List.length_map]

/-- Settles O50: a completed command has performed its whole plan. -/
theorem everyScheduleSameOutcome : Obligations.EveryScheduleSameOutcome := by
  intro s u k plan hBusy hSteps hIdle
  obtain ⟨hDone, hStatus, hData⟩ := hSteps.completed hBusy hIdle
  exact ⟨hDone.engine.joints, hDone.engine.motorsOff, hDone.engine.bus, hDone.engine.bytes, hStatus, hData⟩

/-! A command with a plan, from its acceptance to its completion (R90, R99). -/

/-- The command of this plan, accepted in `s`, has completed in `u`. -/
structure Completed (s : State) (plan : List MicroOp) (u : State) : Prop where
  joints : u.joints = (performAll plan s).joints
  pulses : ∃ ps : List Pulse, u.portLog = s.portLog ++ pulseWrites ps ∧ ps.length = pulseCount plan ∧
    spaced s.tMin ps = true
  status : u.status = statusOK

section

variable {s u : State} {k : Kind} {plan : List MicroOp}

theorem completed_of_beginPlan (h : BusySteps (s.beginPlan k plan) u) (hIdle : u.seq = .idle) : Completed s plan u := by
  obtain ⟨hDone, hStatus, _⟩ := h.completed rfl hIdle
  obtain ⟨hJoints, _⟩ := performAll_congr (s := s) (t := s.beginPlan k plan) plan rfl rfl rfl
  obtain ⟨ps, hLog, hBytes, hSpaced, _⟩ := hDone.pulses
  refine ⟨hDone.engine.joints.trans hJoints, ⟨ps, hLog, ?_, hSpaced⟩, hStatus⟩
  rw [← length_planBytes plan (s.beginPlan k plan), ← hBytes, List.length_map]

/-- Acceptance of a plan that may be empty: an empty one has completed at once (R90, R93). -/
theorem completed_of_acceptPlan (hStart : s.seq = .idle) (h : BusySteps (s.acceptPlan k (.ok plan)) u)
    (hIdle : u.seq = .idle) : Completed s plan u := by
  by_cases hPlan : plan = []
  · subst hPlan
    rw [State.acceptPlan_nil hStart] at h
    obtain rfl := h.eq_of_idle hStart
    exact ⟨rfl, ⟨[], (List.append_nil _).symm, rfl, rfl⟩, rfl⟩
  · rw [State.acceptPlan_plan hStart hPlan] at h
    exact completed_of_beginPlan h hIdle

theorem Completed.phase (h : Completed s plan u) (j : JointIdx) :
    ((u.phase j).val : Int) = ((s.phase j).val + netSteps j plan) % 4 := by
  rw [← performAll_phase, State.phase, h.joints]
  rfl

theorem Completed.pos (h : Completed s plan u) {j : JointIdx}
    (hFits : positionFits s.posWidth (s.pos j) ∨ ∃ d, .stepOp j d ∈ plan) :
    u.pos j = wrapPosition s.posWidth (s.pos j + netSteps j plan) := by
  rw [← performAll_pos hFits, State.pos, h.joints]
  rfl

theorem Completed.joint_of_not_mem (h : Completed s plan u) {j : JointIdx} (hSteps : ∀ op ∈ plan, op.isStep = true)
    (hOther : ∀ d, .stepOp j d ∉ plan) : u.joints[j] = s.joints[j] := by
  rw [← performAll_joint_of_not_mem (s := s) hSteps hOther, h.joints]

end

/-- Settles O51: the plan of a DRIVE is the same StepOp as often as its count says. -/
theorem completedDriveMovesExactly : Obligations.CompletedDriveMovesExactly := by
  intro s t u j n d i dir hStart hJoint hDir hCount hOn hExec hSteps hIdle
  rw [exec_drive_of_valid hStart hJoint hDir hCount hOn] at hExec
  obtain rfl := Host.Outcome.next.inj hExec
  have hDone := completed_of_beginPlan hSteps hIdle
  have hNat : ((n.toInt.toNat : Nat) : Int) = n.toInt := Int.toNat_of_nonneg hCount.le
  have hNet : netSteps i (List.replicate n.toInt.toNat (.stepOp i dir)) = n.toInt * dir.delta := by
    rw [netSteps_replicate, hNat]
  have hMem : MicroOp.stepOp i dir ∈ List.replicate n.toInt.toNat (.stepOp i dir) := by
    rw [List.mem_replicate]
    exact ⟨by omega, rfl⟩
  have hAll : ∀ op ∈ List.replicate n.toInt.toNat (MicroOp.stepOp i dir), op.isStep = true := by
    intro op hOp
    rw [List.eq_of_mem_replicate hOp]
    rfl
  have hPos := hDone.pos (.inr ⟨dir, hMem⟩)
  rw [hNet] at hPos
  obtain ⟨ps, hLog, hLength, hSpaced⟩ := hDone.pulses
  refine ⟨fun hWidth => by rw [hPos, hWidth]; rfl, fun m hWidth => by rw [hPos, hWidth]; rfl, ?_, ?_,
    ps, hLog, ?_, hSpaced, hDone.status⟩
  · rw [hDone.phase, hNet]
  · exact fun l hl => hDone.joint_of_not_mem hAll fun d' hOp =>
      hl (MicroOp.stepOp.inj (List.eq_of_mem_replicate hOp)).1
  · rw [hLength, pulseCount_of_steps hAll, List.length_replicate, hNat]

/-- Settles O52: the rounds hold each lane as often as its magnitude says, so the net steps are the sums of the counts. -/
theorem completedDriveMultiMovesExactly : Obligations.CompletedDriveMultiMovesExactly := by
  intro s t u js ss is hStart hJoints hLength hOn hExec hSteps hIdle
  rw [exec_driveMulti_of_valid hJoints hLength hOn] at hExec
  obtain rfl := Host.Outcome.next.inj hExec
  have hDone := completed_of_acceptPlan hStart hSteps hIdle
  obtain ⟨hCount, hNet⟩ := multiPlanCounts (is.zip (ss.map stepCount))
  obtain ⟨ps, hLog, hPulses, hSpaced⟩ := hDone.pulses
  refine ⟨fun l => ⟨fun hWidth => ?_, fun m hWidth hFits => ?_, ?_, fun hOther => ?_⟩,
    ps, hLog, hPulses.trans hCount, hSpaced, hDone.status⟩
  · rw [hDone.pos (.inl (by rw [hWidth]; trivial)), hNet, hWidth]
    rfl
  · rw [hDone.pos (.inl (hWidth ▸ hFits)), hNet, hWidth]
    rfl
  · rw [hDone.phase, hNet]
    rfl
  · refine hDone.joint_of_not_mem (fun _ => isStep_of_mem_multiPlan) fun d hOp => hOther ?_
    obtain ⟨lane, hLane, hEq⟩ := mem_multiPlan hOp
    obtain ⟨rfl, _⟩ := MicroOp.stepOp.inj hEq
    exact (List.of_mem_zip hLane).1

end Sys2Proof.Machine
end

section
/-! PROOFS. The eager schedule (spec/41_motion.md R88, R89, R95): time is advanced exactly to each opening of the gate, so the pulses
of a plan come one after the other, `T_MIN` apart. -/

namespace Sys2Proof.Machine

/-! Runs of a scheduled block, one move at a time (R88, R89, R144). -/

section

variable {s : State} {k : Kind} {op : MicroOp} {rest : List MicroOp} {ms : List Move} (n : Nat)

theorem run_tick {delta : Nat} (h : s.agenda = .tick delta :: ms) :
    core.run (n + 1) s = core.run n { s with now := s.now + delta, agenda := ms } := run_succ n (step_of_agenda h)

theorem run_turn (h : s.agenda = .sequencer :: ms) :
    core.run (n + 1) s = core.run n ({ s with agenda := ms } : State).sequencerTurn := run_succ n (step_of_agenda h)

theorem run_head (h : s.agenda = .sequencer :: ms) (hBusy : s.seq = .busy k (op :: rest))
    (hGate : op.isPulse = true → s.last + s.tMin ≤ s.now) :
    core.run (n + 1) s = core.run n (({ s with agenda := ms } : State).performHead k op rest) := by
  rw [run_turn n h, State.sequencerTurn_of_enabled (s := { s with agenda := ms }) hBusy (State.headEnabled_iff.mpr hGate)]

theorem run_complete (h : s.agenda = .sequencer :: ms) (hBusy : s.seq = .busy k []) :
    core.run (n + 1) s = core.run n ({ s with agenda := ms } : State).complete := by
  rw [run_turn n h, State.sequencerTurn_of_empty (s := { s with agenda := ms }) hBusy]

theorem State.performHead_agenda : (s.performHead k op rest).agenda = s.agenda := by
  obtain ⟨_, _, _, _, _, _, _, hAgenda, _⟩ := s.perform_frame op
  exact hAgenda

end

/-! The outcome. -/

/-- The command of the plan has completed in `u`, with its pulses on time from the gate of `s` on and the moves `later` left. -/
structure EagerOutcome (s : State) (plan : List MicroOp) (later : List Move) (u : State) : Prop where
  seq : u.seq = .idle
  status : u.status = statusOK
  data : u.data = 0x00
  agenda : u.agenda = later
  joints : u.joints = (performAll plan s).joints
  motorsOff : u.motorsOff = (performAll plan s).motorsOff
  portLog : u.portLog = s.portLog ++ pulseWrites (pulseTrain s.tMin s.gateTime (planBytes plan s))

theorem EagerOutcome.complete (s : State) (later : List Move) :
    EagerOutcome s [] later ({ s with agenda := later } : State).complete :=
  ⟨rfl, rfl, rfl, rfl, rfl, rfl, (List.append_nil _).symm⟩

/-- A pulse closes the gate for `T_MIN` from now on (R27, R84). -/
theorem State.gateTime_performHead_of_pulse (s : State) (k : Kind) {op : MicroOp} (rest : List MicroOp)
    (h : op.isPulse = true) : (s.performHead k op rest).gateTime = s.now + s.tMin := by
  rw [State.gateTime, s.tMin_congr _ (s.performHead_cfg k op rest), s.performHead_now]
  rcases s.perform_planBytes op with ⟨_, _, _, _, hLast, _⟩ | ⟨hOther, _⟩
  · have hLastNow : (s.performHead k op rest).last = s.now := hLast
    rw [hLastNow]
    exact max_eq_right (Nat.le_add_right _ _)
  · exact absurd (h.symm.trans hOther) (by decide)

/-- SetOff leaves the gate as it is (R88, R103). -/
theorem State.gateTime_performHead_of_not_pulse (s : State) (k : Kind) {op : MicroOp} (rest : List MicroOp)
    (h : ¬ op.isPulse = true) : (s.performHead k op rest).gateTime = s.gateTime := by
  rw [State.gateTime, s.tMin_congr _ (s.performHead_cfg k op rest), s.performHead_now]
  rcases s.perform_planBytes op with ⟨hPulse, _⟩ | ⟨_, _, _, hLast, _⟩
  · exact absurd hPulse h
  · have hLastSame : (s.performHead k op rest).last = s.last := hLast
    rw [hLastSame, State.gateTime]

/-- Time that passes before the gate opens, and the moves that let it pass, change nothing of the outcome. -/
theorem EagerOutcome.of_wait {s u : State} {plan : List MicroOp} {ms later : List Move} {now : Nat} (hLater : s.now ≤ now)
    (hGate : now ≤ s.gateTime) (h : EagerOutcome { s with now := now, agenda := ms } plan later u) :
    EagerOutcome s plan later u := by
  obtain ⟨hJoints, hOff⟩ := performAll_congr (s := s) (t := { s with now := now, agenda := ms }) plan rfl rfl rfl
  have hBytes := planBytes_congr plan (s := s) (t := { s with now := now, agenda := ms }) rfl rfl
  have hSame : max now (s.last + s.tMin) = s.gateTime := by
    rw [State.gateTime] at hGate ⊢
    omega
  refine ⟨h.seq, h.status, h.data, h.agenda, h.joints.trans hJoints, h.motorsOff.trans hOff, ?_⟩
  rw [← hSame, ← hBytes]
  exact h.portLog

/-- A head performed, which for a pulse is at the opening of the gate, and then the rest of the plan on time. -/
theorem EagerOutcome.cons {s u : State} {k : Kind} {op : MicroOp} {rest : List MicroOp} {later : List Move}
    (hTime : op.isPulse = true → s.now = s.gateTime) (h : EagerOutcome (s.performHead k op rest) rest later u) :
    EagerOutcome s (op :: rest) later u := by
  have hLog := h.portLog
  have hBytes : planBytes rest (s.performHead k op rest) = planBytes rest (s.perform op) := planBytes_congr rest rfl rfl
  obtain ⟨hJoints, hOff⟩ :=
    performAll_congr (s := s.perform op) (t := s.performHead k op rest) rest rfl rfl rfl
  refine ⟨h.seq, h.status, h.data, h.agenda, h.joints.trans hJoints, h.motorsOff.trans hOff, ?_⟩
  rw [hLog, hBytes, s.tMin_congr _ (s.performHead_cfg k op rest), planBytes_cons]
  rcases s.perform_planBytes op with ⟨hPulse, b, hByte, _, _, hOne⟩ | ⟨hOther, hNone, _, _, hSame⟩
  · have hOneLog : (s.performHead k op rest).portLog = s.portLog ++ (⟨s.now, b⟩ : Pulse).writes := hOne
    rw [s.gateTime_performHead_of_pulse k rest hPulse, hOneLog, hByte, ← hTime hPulse, List.append_assoc]
    rfl
  · have hSameLog : (s.performHead k op rest).portLog = s.portLog := hSame
    rw [s.gateTime_performHead_of_not_pulse k rest (Bool.not_eq_true _ ▸ hOther), hSameLog, hNone]
    rfl

/-- The eager schedule runs the plan to its outcome, where the wait it begins with ends at the opening of the gate. -/
theorem run_eagerMoves {s : State} {k : Kind} {plan : List MicroOp} {later : List Move} {tMin wait : Nat}
    (hBusy : s.seq = .busy k plan) (hMin : s.tMin = tMin) (hAgenda : s.agenda = eagerMoves tMin wait plan ++ later)
    (hWait : s.now + wait = s.gateTime) :
    ∃ u, core.run (eagerMoves tMin wait plan).length s = .next u ∧ EagerOutcome s plan later u := by
  induction plan generalizing s wait with
  | nil => exact ⟨_, run_complete 0 hAgenda hBusy, EagerOutcome.complete s later⟩
  | cons op rest ih =>
    by_cases hPulse : op.isPulse = true
    · rw [eagerMoves, if_pos hPulse] at hAgenda ⊢
      have hGate : s.last + s.tMin ≤ s.now + wait := hWait ▸ le_max_right _ _
      have hOpen : s.now + wait = max (s.now + wait) (s.last + s.tMin) := (max_eq_left hGate).symm
      obtain ⟨ready, hReady⟩ : ∃ v : State,
          v = { s with now := s.now + wait, agenda := eagerMoves tMin tMin rest ++ later } := ⟨_, rfl⟩
      have hReadyMin : ready.tMin = tMin := hReady ▸ hMin
      have hReadyOpen : ready.now = ready.gateTime := hReady ▸ hOpen
      obtain ⟨u, hRun, hOut⟩ := ih (s := ready.performHead k op rest) (wait := tMin) rfl
        ((State.tMin_congr _ _ (ready.performHead_cfg k op rest)).trans hReadyMin)
        (State.performHead_agenda.trans (by rw [hReady]))
        (by rw [ready.gateTime_performHead_of_pulse k rest hPulse, ready.performHead_now, hReadyMin])
      refine ⟨u, ?_, EagerOutcome.of_wait (Nat.le_add_right _ wait) hWait.le (hReady ▸ hOut.cons fun _ => hReadyOpen)⟩
      calc core.run (eagerMoves tMin tMin rest).length.succ.succ s
          = core.run (eagerMoves tMin tMin rest).length.succ
              { s with now := s.now + wait, agenda := .sequencer :: (eagerMoves tMin tMin rest ++ later) } :=
            run_tick _ hAgenda
        _ = core.run (eagerMoves tMin tMin rest).length (ready.performHead k op rest) :=
            hReady ▸ run_head _ rfl hBusy fun _ => hGate
        _ = .next u := hRun
    · rw [eagerMoves, if_neg hPulse] at hAgenda ⊢
      obtain ⟨ready, hReady⟩ : ∃ v : State, v = { s with agenda := eagerMoves tMin wait rest ++ later } := ⟨_, rfl⟩
      obtain ⟨u, hRun, hOut⟩ := ih (s := ready.performHead k op rest) (wait := wait) rfl
        ((State.tMin_congr _ _ (ready.performHead_cfg k op rest)).trans (hReady ▸ hMin))
        (State.performHead_agenda.trans (by rw [hReady]))
        (by
          rw [ready.gateTime_performHead_of_not_pulse k rest hPulse, ready.performHead_now, hReady]
          exact hWait)
      refine ⟨u, ?_, EagerOutcome.of_wait le_rfl (le_max_left _ _) (hReady ▸ hOut.cons fun h => absurd h hPulse)⟩
      calc core.run (eagerMoves tMin wait rest).length.succ s
          = core.run (eagerMoves tMin wait rest).length (ready.performHead k op rest) :=
            hReady ▸ run_head _ hAgenda hBusy fun h => absurd h hPulse
        _ = .next u := hRun

/-- Settles O54: the schedule's first wait is the time to the opening of the gate. -/
theorem eagerScheduleTimes : Obligations.EagerScheduleTimes := by
  intro s k plan later hBusy hAgenda
  have hWait : s.now + (s.gateTime - s.now) = s.gateTime := Nat.add_sub_of_le (le_max_left _ _)
  obtain ⟨u, hRun, h⟩ := run_eagerMoves hBusy rfl hAgenda hWait
  exact ⟨u, hRun, h.seq, h.status, h.data, h.agenda, h.joints, h.motorsOff, h.portLog, length_planBytes plan s⟩

end Sys2Proof.Machine
end

section
/-! PROOFS. Schedules that complete a command (spec/41_motion.md R84, R88; spec/70_reset_and_hazards.md R146): what each move does
to a Busy block, and enough turns of the sequencer, each after enough time. -/

namespace Sys2Proof.Machine

/-! Runs within the life of a command. -/

theorem BusySteps.cons {s t u : State} (hBusy : s.seq.isBusy = true) (hReset : s.nextMove ≠ .reset)
    (hStep : step s = .next t) (h : BusySteps t u) : BusySteps s u := by
  induction h with
  | refl => exact .tail (.refl s) hBusy hReset hStep
  | tail _ busy noReset last ih => exact .tail ih busy noReset last

/-- A run of `n` steps from `s` to `u`, each of them a step of one command (R97). -/
def BusyRun (n : Nat) (s u : State) : Prop := core.run n s = .next u ∧ BusySteps s u

theorem BusyRun.refl (s : State) : BusyRun 0 s s := ⟨rfl, .refl s⟩

theorem BusyRun.cons {n : Nat} {s t u : State} (hBusy : s.seq.isBusy = true) (hReset : s.nextMove ≠ .reset)
    (hStep : step s = .next t) (h : BusyRun n t u) : BusyRun (n + 1) s u := by
  obtain ⟨hRun, hSteps⟩ := h
  exact ⟨(run_succ n hStep).trans hRun, .cons hBusy hReset hStep hSteps⟩

theorem Seq.isBusy_iff (q : Seq) : q.isBusy = true ↔ ∃ k plan, q = .busy k plan := by
  cases q <;> simp [Seq.isBusy]

/-! What a move does to a Busy block. -/

/-- A move takes nothing off the schedule: that is the choice of the move (R146). -/
theorem State.makeMove_agenda {s t : State} {m : Move} (h : s.makeMove m = .next t) : t.agenda = s.agenda := by
  cases m with
  | present ws => cases h; rfl
  | presentByte b =>
    cases h
    obtain ⟨_, _, _, _, _, _, _, _, _, _, hAgenda, _⟩ := s.presentByte_frame b
    exact hAgenda
  | accept =>
    obtain ⟨_, _, _, _, _, _, _, _, hAgenda, _⟩ := (State.acceptTurn_inv h).frame
    exact hAgenda
  | sequencer =>
    cases h
    obtain ⟨_, _, _, _, hAgenda, _⟩ := s.sequencerTurn_frame
    exact hAgenda
  | tick delta => cases h; rfl
  | reset => cases h; rfl

/-- Time does not go back (R31, R144). -/
theorem State.makeMove_now_le {s t : State} {m : Move} (h : s.makeMove m = .next t) : s.now ≤ t.now := by
  cases m with
  | present ws => cases h; exact le_rfl
  | presentByte b =>
    cases h
    exact (s.presentByte_block b).now.ge
  | accept =>
    obtain ⟨_, _, _, _, _, _, hNow, _⟩ := (State.acceptTurn_inv h).frame
    exact hNow.ge
  | sequencer =>
    cases h
    obtain ⟨_, hNow, _⟩ := s.sequencerTurn_frame
    exact hNow.ge
  | tick delta => cases h; exact Nat.le_add_right _ _
  | reset => cases h; exact le_rfl

/-- A Busy block accepts nothing (R90, R138). -/
theorem State.makeMove_accept_busy {s : State} (h : s.seq.isBusy = true) : s.makeMove .accept = .next s := by
  obtain ⟨k, plan, hBusy⟩ := s.seq.isBusy_iff.mp h
  exact State.acceptTurn_of_busy hBusy

/-- While Busy, a move that is neither a reset nor an enabled turn of the sequencer at most lets time pass. -/
theorem State.makeMove_holds {s t : State} {m : Move} (hBusy : s.seq.isBusy = true) (hReset : m ≠ .reset)
    (hTurn : ¬ (m = .sequencer ∧ s.enabled .sequencer = true)) (h : s.makeMove m = .next t) :
    ∃ now, s.now ≤ now ∧ SameBlock t { s with now := now } := by
  cases m with
  | present ws => cases h; exact ⟨s.now, le_rfl, rfl⟩
  | presentByte b => cases h; exact ⟨s.now, le_rfl, s.presentByte_block b⟩
  | accept =>
    obtain rfl := Host.Outcome.next.inj ((State.makeMove_accept_busy hBusy).symm.trans h)
    exact ⟨s.now, le_rfl, rfl⟩
  | sequencer =>
    have hDisabled : s.enabled .sequencer = false := eq_false_of_ne_true fun hEnabled => hTurn ⟨rfl, hEnabled⟩
    obtain rfl := Host.Outcome.next.inj ((State.makeMove_of_disabled hDisabled).symm.trans h)
    exact ⟨s.now, le_rfl, rfl⟩
  | tick delta => cases h; exact ⟨s.now + delta, Nat.le_add_right _ _, rfl⟩
  | reset => exact absurd rfl hReset

/-- A turn of the sequencer does to the block what the block alone says (R88, R89). -/
theorem State.sequencerTurn_congr {s t : State} (h : SameBlock s t) : SameBlock s.sequencerTurn t.sequencerTurn := by
  have hSeq : t.seq = s.seq := h.seq.symm
  rcases s.sequencerTurn_cases with ⟨hs, hTurn⟩ | ⟨k, hs, hTurn⟩ | ⟨k, op, rest, hs, hHead, hTurn⟩ |
    ⟨k, op, rest, hs, hHead, hTurn⟩ <;> rw [hTurn]
  · rwa [State.sequencerTurn_of_idle (hSeq.trans hs)]
  · rw [State.sequencerTurn_of_empty (hSeq.trans hs)]
    exact congrArg State.complete h
  · rw [State.sequencerTurn_of_held (hSeq.trans hs) (by rw [← h.headEnabled, hHead]; decide)]
    exact h
  · rw [State.sequencerTurn_of_enabled (hSeq.trans hs) (by rw [← h.headEnabled, hHead])]
    exact State.performHead_block_congr k op rest h

/-- What a move does to a Busy block is what the block alone says. -/
theorem State.makeMove_congr {s t s' t' : State} {m : Move} (same : SameBlock s t) (hBusy : s.seq.isBusy = true)
    (hs : s.makeMove m = .next s') (ht : t.makeMove m = .next t') : SameBlock s' t' := by
  cases m with
  | present ws => cases hs; cases ht; exact same
  | presentByte b =>
    cases hs; cases ht
    exact (s.presentByte_block b).trans (same.trans (t.presentByte_block b).symm)
  | accept =>
    obtain rfl := Host.Outcome.next.inj ((State.makeMove_accept_busy hBusy).symm.trans hs)
    obtain rfl := Host.Outcome.next.inj ((State.makeMove_accept_busy (same.seq ▸ hBusy)).symm.trans ht)
    exact same
  | sequencer => cases hs; cases ht; exact State.sequencerTurn_congr same
  | tick delta => cases hs; cases ht; exact congrArg (State.advanceTime delta) same
  | reset => cases hs; cases ht; exact congrArg State.resetBlock same

/-! Enough timed turns (R84, R88). -/

/-- The schedule `ms` holds enough timed turns for a plan of `len` micro-operations and its completion, where the last pulse was at
`last`, the time is `now`, and `waited` ticks have passed since the last timed turn: one for each and one more. A pulse since that
turn can make the next one come too early for the gate; then a micro-operation was performed beside the timed turns, and one turn is
to spare. -/
def TurnsDue (tMin last now len waited : Nat) (ms : List Move) : Prop :=
  last ≤ now ∧ (last + waited ≤ now ∧ len + 1 ≤ timedTurns tMin waited ms ∨ len + 2 ≤ timedTurns tMin waited ms)

section

variable {tMin last now len waited : Nat} {ms : List Move}

theorem timedTurns_turn :
    timedTurns tMin waited (.sequencer :: ms) =
      if tMin ≤ waited then timedTurns tMin 0 ms + 1 else timedTurns tMin waited ms := by
  rw [timedTurns]

theorem TurnsDue.tick {delta : Nat} (h : TurnsDue tMin last now len waited (.tick delta :: ms)) :
    TurnsDue tMin last (now + delta) len (waited + delta) ms := by
  unfold TurnsDue timedTurns at h
  unfold TurnsDue
  omega

/-- A turn that performs a micro-operation: a timed turn has been used for it, or one is to spare. -/
theorem TurnsDue.performed {last' : Nat} (h : TurnsDue tMin last now (len + 1) waited (.sequencer :: ms))
    (hLast : last' = now ∨ last' = last) : ∃ waited', TurnsDue tMin last' now len waited' ms := by
  unfold TurnsDue at h ⊢
  rw [timedTurns_turn] at h
  split_ifs at h with hTimed
  · exact ⟨0, by omega⟩
  · exact ⟨waited, by omega⟩

/-- A turn that the closed gate holds is a timed one only where a turn is to spare. -/
theorem TurnsDue.held (h : TurnsDue tMin last now len waited (.sequencer :: ms)) (hGate : now < last + tMin) :
    ∃ waited', TurnsDue tMin last now len waited' ms := by
  unfold TurnsDue at h ⊢
  rw [timedTurns_turn] at h
  split_ifs at h with hTimed
  · exact ⟨0, by omega⟩
  · exact ⟨waited, by omega⟩

theorem not_turnsDue_nil : ¬ TurnsDue tMin last now len waited [] := by
  unfold TurnsDue timedTurns
  omega

end

/-- The head of a plan, once performed, is a pulse of now or leaves `last` (R27). -/
theorem State.performHead_last_cases (s : State) (k : Kind) (op : MicroOp) (rest : List MicroOp) :
    (s.performHead k op rest).last = s.now ∨ (s.performHead k op rest).last = s.last := by
  rcases s.perform_port op with ⟨_, _, _, _, hLast, _⟩ | ⟨_, _, hLast, _⟩
  · exact .inl hLast
  · exact .inr hLast

/-- A turn of the sequencer with enough turns due completes the command, or leaves enough for the rest of the plan. -/
theorem TurnsDue.turn {s : State} {k : Kind} {plan : List MicroOp} {waited : Nat} {ms : List Move}
    (hBusy : s.seq = .busy k plan) (h : TurnsDue s.tMin s.last s.now plan.length waited (.sequencer :: ms)) :
    s.sequencerTurn.seq = .idle ∨ ∃ plan' waited', s.sequencerTurn.seq = .busy k plan' ∧
      TurnsDue s.sequencerTurn.tMin s.sequencerTurn.last s.sequencerTurn.now plan'.length waited' ms := by
  cases plan with
  | nil =>
    rw [State.sequencerTurn_of_empty hBusy]
    exact .inl rfl
  | cons op rest =>
    right
    by_cases hHead : s.headEnabled op = true
    · rw [State.sequencerTurn_of_enabled hBusy hHead, s.tMin_congr _ (s.performHead_cfg k op rest), s.performHead_now]
      obtain ⟨waited', hDue⟩ := h.performed (s.performHead_last_cases k op rest)
      exact ⟨rest, waited', rfl, hDue⟩
    · rw [State.sequencerTurn_of_held hBusy hHead]
      have hGate : s.now < s.last + s.tMin := by
        rw [State.headEnabled_iff, Classical.not_imp, Nat.not_le] at hHead
        obtain ⟨_, hClosed⟩ := hHead
        exact hClosed
      obtain ⟨waited', hDue⟩ := h.held hGate
      exact ⟨op :: rest, waited', hBusy, hDue⟩

/-- Every move but a reset does so. -/
theorem TurnsDue.makeMove {s t : State} {k : Kind} {plan : List MicroOp} {waited : Nat} {m : Move} {ms : List Move}
    (hBusy : s.seq = .busy k plan) (hReset : m ≠ .reset) (h : TurnsDue s.tMin s.last s.now plan.length waited (m :: ms))
    (hMove : s.makeMove m = .next t) :
    t.seq = .idle ∨ ∃ plan' waited', t.seq = .busy k plan' ∧ TurnsDue t.tMin t.last t.now plan'.length waited' ms := by
  cases m with
  | present ws => cases hMove; exact .inr ⟨plan, waited, hBusy, h⟩
  | presentByte b =>
    cases hMove
    have hSame := s.presentByte_block b
    refine .inr ⟨plan, waited, hSame.seq.trans hBusy, ?_⟩
    rw [s.tMin_congr _ hSame.cfg, hSame.last, hSame.now]
    exact h
  | accept =>
    obtain rfl := Host.Outcome.next.inj ((State.acceptTurn_of_busy hBusy).symm.trans hMove)
    exact .inr ⟨plan, waited, hBusy, h⟩
  | sequencer => cases hMove; exact h.turn hBusy
  | tick delta => cases hMove; exact .inr ⟨plan, waited + delta, hBusy, h.tick⟩
  | reset => exact absurd rfl hReset

theorem exists_busyRun_of_turnsDue {s : State} {k : Kind} {plan : List MicroOp} {waited : Nat} {ms later : List Move}
    (hBusy : s.seq = .busy k plan) (hAgenda : s.agenda = ms ++ later) (hReset : .reset ∉ ms)
    (hDue : TurnsDue s.tMin s.last s.now plan.length waited ms) : ∃ n u, n ≤ ms.length ∧ BusyRun n s u ∧ u.seq = .idle := by
  induction ms generalizing s plan waited with
  | nil => exact absurd hDue not_turnsDue_nil
  | cons m ms ih =>
    have hIsBusy : s.seq.isBusy = true := by rw [hBusy]; rfl
    have hNotReset : m ≠ .reset := fun e => hReset (e ▸ List.mem_cons_self)
    have hNext : s.nextMove ≠ .reset := State.nextMove_of_agenda hAgenda ▸ hNotReset
    obtain ⟨t, hMove⟩ := State.makeMove_total { s with agenda := ms ++ later } m
    have hStep : step s = .next t := (step_of_agenda hAgenda).trans hMove
    rcases TurnsDue.makeMove (s := { s with agenda := ms ++ later }) hBusy hNotReset hDue hMove with
      hIdle | ⟨plan', waited', hBusy', hDue'⟩
    · exact ⟨1, t, Nat.succ_pos _, .cons hIsBusy hNext hStep (.refl t), hIdle⟩
    · obtain ⟨n, u, hn, hRun, hIdle⟩ :=
        ih hBusy' (State.makeMove_agenda hMove) (fun h => hReset (List.mem_cons_of_mem m h)) hDue'
      exact ⟨n + 1, u, Nat.succ_le_succ hn, .cons hIsBusy hNext hStep hRun, hIdle⟩

/-- Settles O55: at the start no tick is counted, and none of the turns is used. -/
theorem timedTurnsCompleteCommand : Obligations.TimedTurnsCompleteCommand := by
  intro s k plan ms later hBusy hLast hAgenda hReset hTurns
  have hDue : TurnsDue s.tMin s.last s.now plan.length 0 ms := ⟨hLast, .inl ⟨hLast, hTurns⟩⟩
  obtain ⟨n, u, hn, ⟨hRun, hSteps⟩, hIdle⟩ := exists_busyRun_of_turnsDue hBusy hAgenda hReset hDue
  exact ⟨n, u, hn, hRun, hSteps, hIdle⟩

end Sys2Proof.Machine
end

section
/-! PROOFS. Every weakly fair schedule without a reset completes a command (spec/41_motion.md R88; spec/70_reset_and_hazards.md R146):
the gate opens, the sequencer gets its turn, and so the plan comes to its end. -/

namespace Sys2Proof.Machine

section

variable {schedule : Nat → Move} {s : State}

theorem afterMoves_succ (schedule : Nat → Move) (s : State) (n : Nat) :
    (afterMoves schedule s n).makeMove (schedule n) = .next (afterMoves schedule s (n + 1)) := by
  obtain ⟨t, hMove⟩ := (afterMoves schedule s n).makeMove_total (schedule n)
  rw [afterMoves, hMove]

theorem monotone_afterMoves_now (schedule : Nat → Move) (s : State) : Monotone fun n => (afterMoves schedule s n).now :=
  monotone_nat_of_le_succ fun n => State.makeMove_now_le (afterMoves_succ schedule s n)

/-! The next turn of the sequencer. -/

/-- Until the sequencer takes an enabled turn, a Busy block at most lets time pass. -/
theorem afterMoves_held (hReset : ∀ n, schedule n ≠ .reset) {n m : Nat} (hnm : n ≤ m)
    (hBusy : (afterMoves schedule s n).seq.isBusy = true)
    (hHeld : ∀ j, n ≤ j → j < m → ¬ (schedule j = .sequencer ∧ (afterMoves schedule s j).enabled .sequencer = true)) :
    ∃ now, SameBlock (afterMoves schedule s m) { afterMoves schedule s n with now := now } := by
  induction m, hnm using Nat.le_induction with
  | base => exact ⟨(afterMoves schedule s n).now, rfl⟩
  | succ m hnm ih =>
    obtain ⟨now, hSame⟩ := ih fun j hj hjm => hHeld j hj (Nat.lt_succ_of_lt hjm)
    have hStill : (afterMoves schedule s m).seq.isBusy = true := hSame.seq ▸ hBusy
    obtain ⟨now', _, hSame'⟩ :=
      State.makeMove_holds hStill (hReset m) (hHeld m hnm (Nat.lt_succ_self m)) (afterMoves_succ schedule s m)
    exact ⟨now', hSame'.trans (congrArg (fun t : State => { t with now := now' }) hSame)⟩

theorem State.enabled_sequencer_of_gate {t : State} (hBusy : t.seq.isBusy = true) (hGate : t.last + t.tMin ≤ t.now) :
    t.enabled .sequencer = true := by
  obtain ⟨k, plan, hSeq⟩ := t.seq.isBusy_iff.mp hBusy
  cases plan with
  | nil => simp only [State.enabled, hSeq]
  | cons op rest =>
    simp only [State.enabled, hSeq]
    exact State.headEnabled_iff.mpr fun _ => hGate

/-- A fair schedule gives a Busy block an enabled turn: if it never did, the block would stay as it is while time goes on, so the
gate would be open and the turn enabled for ever. -/
theorem exists_enabled_turn (hFair : weaklyFair schedule s) (hReset : ∀ n, schedule n ≠ .reset) {n : Nat}
    (hBusy : (afterMoves schedule s n).seq.isBusy = true) :
    ∃ m, n ≤ m ∧ schedule m = .sequencer ∧ (afterMoves schedule s m).enabled .sequencer = true := by
  obtain ⟨hTime, hTurn⟩ := hFair
  by_contra hNone
  have hNever : ∀ j, n ≤ j → ¬ (schedule j = .sequencer ∧ (afterMoves schedule s j).enabled .sequencer = true) :=
    fun j hj h => hNone ⟨j, hj, h⟩
  obtain ⟨opened, hOpened⟩ := hTime ((afterMoves schedule s n).last + (afterMoves schedule s n).tMin)
  have hEnabled : ∀ m, max n opened ≤ m → (afterMoves schedule s m).enabled .sequencer = true := by
    intro m hm
    obtain ⟨now, hSame⟩ := afterMoves_held hReset ((le_max_left _ _).trans hm) hBusy fun j hj _ => hNever j hj
    refine State.enabled_sequencer_of_gate (hSame.seq ▸ hBusy) ?_
    rw [hSame.last, State.tMin_congr _ _ hSame.cfg]
    exact hOpened.trans (monotone_afterMoves_now schedule s ((le_max_right _ _).trans hm))
  obtain ⟨m, hm, hMove⟩ := hTurn _ hEnabled
  exact hNever m ((le_max_left _ _).trans hm) ⟨hMove, hEnabled m hm⟩

/-- The first such turn finds the block with the plan it had. -/
theorem exists_first_enabled_turn (hFair : weaklyFair schedule s) (hReset : ∀ n, schedule n ≠ .reset) {n : Nat} {k : Kind}
    {plan : List MicroOp} (hBusy : (afterMoves schedule s n).seq = .busy k plan) :
    ∃ m, (afterMoves schedule s m).seq = .busy k plan ∧ schedule m = .sequencer ∧
      (afterMoves schedule s m).enabled .sequencer = true := by
  classical
  have hIsBusy : (afterMoves schedule s n).seq.isBusy = true := by rw [hBusy]; rfl
  have hTurn := exists_enabled_turn hFair hReset hIsBusy
  obtain ⟨hFrom, hMove, hEnabled⟩ := Nat.find_spec hTurn
  obtain ⟨now, hSame⟩ := afterMoves_held hReset hFrom hIsBusy fun j hj hFirst h => Nat.find_min hTurn hFirst ⟨hj, h⟩
  exact ⟨Nat.find hTurn, hSame.seq.trans hBusy, hMove, hEnabled⟩

/-- By induction on the plan, whose head each such turn performs. -/
theorem exists_idle (hFair : weaklyFair schedule s) (hReset : ∀ n, schedule n ≠ .reset) {n : Nat} {k : Kind}
    {plan : List MicroOp} (hBusy : (afterMoves schedule s n).seq = .busy k plan) :
    ∃ m, (afterMoves schedule s m).seq = .idle := by
  induction plan generalizing n with
  | nil =>
    obtain ⟨m, hSeq, hMove, _⟩ := exists_first_enabled_turn hFair hReset hBusy
    refine ⟨m + 1, ?_⟩
    rw [afterMoves_turn s m hMove, State.sequencerTurn_of_empty hSeq]
    rfl
  | cons op rest ih =>
    obtain ⟨m, hSeq, hMove, hEnabled⟩ := exists_first_enabled_turn hFair hReset hBusy
    have hHead : (afterMoves schedule s m).headEnabled op = true := by simpa only [State.enabled, hSeq] using hEnabled
    apply ih (n := m + 1)
    rw [afterMoves_turn s m hMove, State.sequencerTurn_of_enabled hSeq hHead]
    rfl

/-! The same moves, scheduled on the block. -/

/-- A block with the next `n` moves of an endless schedule runs to where that schedule leads, while it is Busy. -/
theorem exists_busyRun_afterMoves (hReset : ∀ n, schedule n ≠ .reset) (n : Nat) {i : Nat} {r : State}
    (hAgenda : r.agenda = (List.range' i n).map schedule) (hSame : SameBlock r (afterMoves schedule s i))
    (hBusy : ∀ j, j < i + n → (afterMoves schedule s j).seq.isBusy = true) :
    ∃ u, BusyRun n r u ∧ SameBlock u (afterMoves schedule s (i + n)) := by
  induction n generalizing i r with
  | zero => exact ⟨r, .refl r, hSame⟩
  | succ n ih =>
    have hIsBusy : r.seq.isBusy = true := hSame.seq ▸ hBusy i (by omega)
    rw [List.range'_succ, List.map_cons] at hAgenda
    obtain ⟨t, hMove⟩ := State.makeMove_total { r with agenda := (List.range' (i + 1) n).map schedule } (schedule i)
    have hStep : step r = .next t := (step_of_agenda hAgenda).trans hMove
    have hNext : r.nextMove ≠ .reset := State.nextMove_of_agenda hAgenda ▸ hReset i
    have hSame' : SameBlock t (afterMoves schedule s (i + 1)) :=
      State.makeMove_congr (s := { r with agenda := (List.range' (i + 1) n).map schedule }) hSame hIsBusy hMove
        (afterMoves_succ schedule s i)
    obtain ⟨u, hRun, hEnd⟩ := ih (State.makeMove_agenda hMove) hSame' fun j hj => hBusy j (by omega)
    exact ⟨u, .cons hIsBusy hNext hStep hRun, by rwa [Nat.add_assoc, Nat.add_comm 1] at hEnd⟩

end

/-- Settles O56: the first Idle state along the schedule is reached in as many steps of the command. -/
theorem weaklyFairSchedulesComplete : Obligations.WeaklyFairSchedulesComplete := by
  classical
  intro s k plan schedule hBusy hReset hFair
  have hEnds : ∃ m, (afterMoves schedule s m).seq = .idle := exists_idle hFair hReset (n := 0) hBusy
  have hBefore : ∀ j, j < 0 + Nat.find hEnds → (afterMoves schedule s j).seq.isBusy = true := by
    intro j hj
    rw [Nat.zero_add] at hj
    rcases (afterMoves schedule s j).idle_or_busy with hIdle | ⟨k, plan, hSeq⟩
    · exact absurd hIdle (Nat.find_min hEnds hj)
    · rw [hSeq]
      rfl
  obtain ⟨u, ⟨hRun, hSteps⟩, hSame⟩ := exists_busyRun_afterMoves hReset (Nat.find hEnds) (i := 0)
    (r := { s with agenda := (List.range (Nat.find hEnds)).map schedule }) (s := s) (by rw [List.range_eq_range']) rfl hBefore
  rw [Nat.zero_add] at hSame
  exact ⟨Nat.find hEnds, u, hRun, hSteps, hSame.seq.trans (Nat.find_spec hEnds)⟩

end Sys2Proof.Machine
end

section
/-! PROOFS. SET_ENERGIZED from its acceptance to its completion (spec/42_energize.md R100, R101, R103, R104): six held pulses, then the
flags, and no joint has moved. -/

namespace Sys2Proof.Machine

/-- The StrobeOps of SET_ENERGIZED, one for each joint in index order (R100, R101). -/
def strobeSweep (en : Bool) : List MicroOp := (List.finRange 6).map (.strobeOp · en)

/-- The plan is the sweep, and the flags come last (R102, R103). -/
theorem energizePlan_eq_strobeSweep (en : Bool) : energizePlan en = strobeSweep en ++ [.setOff (!en)] := rfl

section

variable (s : State) (on : Bool)

theorem State.perform_strobeOp_joints (j : JointIdx) : (s.perform (.strobeOp j on)).joints = s.joints := by
  rw [State.perform, State.strobeOp_eq_pulse, State.pulse_joints]

/-- A joint is not moved and not switched by pulses at its held phase, or with its address bits (R87). -/
theorem performAll_strobeOps_joints (js : List JointIdx) :
    (performAll (js.map (.strobeOp · on)) s).joints = s.joints := by
  induction js generalizing s with
  | nil => rfl
  | cons j js ih => rw [List.map_cons, performAll_cons, ih, State.perform_strobeOp_joints]

/-- No StrobeOp changes what the next one pulses, so each byte is that of the phase held at the start (R87). -/
theorem planBytes_strobeOps (js : List JointIdx) :
    planBytes (js.map (.strobeOp · on)) s = js.map (s.strobeByte · on) := by
  induction js with
  | nil => rfl
  | cons j js ih => exact congrArg (s.strobeByte j on :: ·) ih

/-- What SET_ENERGIZED does to the joints, performed as a whole: SetOff, and nothing else (R103, R104). -/
theorem performAll_energizePlan_joints (en : Bool) :
    (performAll (energizePlan en) s).joints = (s.setOff (!en)).joints := by
  have hSweep : (performAll (strobeSweep en) s).joints = s.joints := performAll_strobeOps_joints s en _
  calc (performAll (energizePlan en) s).joints
      = ((performAll (strobeSweep en) s).setOff (!en)).joints := by
        rw [energizePlan_eq_strobeSweep, performAll_append]
        rfl
    _ = (s.setOff (!en)).joints := by rw [State.setOff_joints, State.setOff_joints, hSweep]

theorem performAll_energizePlan_motorsOff (en : Bool) : (performAll (energizePlan en) s).motorsOff = !en := by
  rw [energizePlan_eq_strobeSweep, performAll_append]
  rfl

/-- The bytes of SET_ENERGIZED: that of each joint in index order (R100, R101). -/
theorem planBytes_energizePlan (en : Bool) :
    planBytes (energizePlan en) s = (List.finRange 6).map (s.strobeByte · en) := by
  rw [energizePlan_eq_strobeSweep, planBytes_append, strobeSweep, planBytes_strobeOps]
  exact List.append_nil _

end

/-- Settles O53: the whole plan has been performed, and of it the pulses give the bytes and SetOff the flags. -/
theorem completedSetEnergizedHoldsPhases : Obligations.CompletedSetEnergizedHoldsPhases := by
  intro s t u en hStart hExec hSteps hIdle
  rw [exec_setEnergized_idle hStart] at hExec
  obtain rfl := Host.Outcome.next.inj hExec
  obtain ⟨hDone, hStatus, _⟩ := hSteps.completed rfl hIdle
  have hJoints : u.joints = (s.setOff (!en)).joints := hDone.engine.joints.trans (performAll_energizePlan_joints _ en)
  have hOff : u.motorsOff = !en := hDone.engine.motorsOff.trans (performAll_energizePlan_motorsOff _ en)
  obtain ⟨ps, hLog, hBytes, hSpaced, _⟩ := hDone.pulses
  refine ⟨hOff, fun j => ⟨?_, ?_, ?_⟩, hStatus, ps, hLog, hSpaced, hBytes.trans (planBytes_energizePlan _ en)⟩
  · calc u.energized j = (s.setOff (!en)).energized j := by rw [State.energized, State.energized, hJoints]
      _ = en := by rw [State.setOff_energized, Bool.not_not]
  · calc u.phase j = (s.setOff (!en)).phase j := by rw [State.phase, State.phase, hJoints]
      _ = s.phase j := State.setOff_phase s j (!en)
  · calc u.pos j = (s.setOff (!en)).pos j := by rw [State.pos, State.pos, hJoints]
      _ = s.pos j := State.setOff_pos s j (!en)

end Sys2Proof.Machine
end

section
/-! PROOFS. The order of the diagnostics (spec/60_exceptions.md R107, R115): what each `validate` answers when one check fails and the
checks before it pass, and what acceptance makes of that. -/

namespace Sys2Proof.Machine

/-! Operands that pass their check, and those that fail it (R66, R68, R93, R108). -/

theorem exists_joint_of_in_range {j : Word} (h : j.toNat ≤ 5) : ∃ i : JointIdx, j.toNat = i.val :=
  ⟨⟨j.toNat, Nat.lt_succ_of_le h⟩, rfl⟩

theorem exists_dir_of_in_range {d : Word} (h : d.toNat ≤ 1) : ∃ dir : Dir, d.toNat = dirCode dir := by
  rcases Nat.le_one_iff_eq_zero_or_eq_one.mp h with hZero | hOne
  · exact ⟨.forward, hZero⟩
  · exact ⟨.backward, hOne⟩

/-- One entry out of range refuses the whole list (R93, R108). -/
theorem jointOperands_of_invalid {js : List Word} (h : ∃ w ∈ js, 5 < w.toNat) : jointOperands js = none := by
  obtain ⟨w, hMem, hInvalid⟩ := h
  induction hMem with
  | head ws => rw [jointOperands, jointOperand_none.mpr hInvalid]
  | tail v _ ih =>
    rw [jointOperands, ih]
    cases jointOperand v <;> rfl

/-! The checks of STEP, in their order (R91, R115). -/

section

variable {j d : Word} {off : Bool}

theorem validateStep_of_invalid_joint (hJoint : 5 < j.toNat) : validateStep j d off = .error .invalidJointIndex := by
  rw [validateStep, jointOperand_none.mpr hJoint]

theorem validateStep_of_invalid_dir (hJoint : j.toNat ≤ 5) (hDir : 1 < d.toNat) :
    validateStep j d off = .error .invalidDirection := by
  obtain ⟨i, hi⟩ := exists_joint_of_in_range hJoint
  simp only [validateStep, jointOperand_some.mpr hi, dirOperand_none.mpr hDir]

theorem validateStep_of_motors_off (hJoint : j.toNat ≤ 5) (hDir : d.toNat ≤ 1) (hOff : off = true) :
    validateStep j d off = .error .motorsDisabled := by
  obtain ⟨i, hi⟩ := exists_joint_of_in_range hJoint
  obtain ⟨dir, hd⟩ := exists_dir_of_in_range hDir
  simp only [validateStep, jointOperand_some.mpr hi, dirOperand_of_code hd, if_pos hOff]

end

/-! The checks of DRIVE, in their order (R92, R115). -/

section

variable {j n d : Word} {off : Bool}

theorem validateDrive_of_invalid_joint (hJoint : 5 < j.toNat) : validateDrive j n d off = .error .invalidJointIndex := by
  rw [validateDrive, jointOperand_none.mpr hJoint]

theorem validateDrive_of_invalid_dir (hJoint : j.toNat ≤ 5) (hDir : 1 < d.toNat) :
    validateDrive j n d off = .error .invalidDirection := by
  obtain ⟨i, hi⟩ := exists_joint_of_in_range hJoint
  simp only [validateDrive, jointOperand_some.mpr hi, dirOperand_none.mpr hDir]

theorem validateDrive_of_invalid_count (hJoint : j.toNat ≤ 5) (hDir : d.toNat ≤ 1) (hCount : n.toInt ≤ 0) :
    validateDrive j n d off = .error .invalidStepCount := by
  obtain ⟨i, hi⟩ := exists_joint_of_in_range hJoint
  obtain ⟨dir, hd⟩ := exists_dir_of_in_range hDir
  have hFails : stepCount n ≤ 0 := hCount
  simp only [validateDrive, jointOperand_some.mpr hi, dirOperand_of_code hd, if_pos hFails]

theorem validateDrive_of_motors_off (hJoint : j.toNat ≤ 5) (hDir : d.toNat ≤ 1) (hCount : 0 < n.toInt)
    (hOff : off = true) : validateDrive j n d off = .error .motorsDisabled := by
  obtain ⟨i, hi⟩ := exists_joint_of_in_range hJoint
  obtain ⟨dir, hd⟩ := exists_dir_of_in_range hDir
  have hPasses : ¬ stepCount n ≤ 0 := Int.not_le.mpr hCount
  simp only [validateDrive, jointOperand_some.mpr hi, dirOperand_of_code hd, if_neg hPasses, if_pos hOff]

end

/-! The checks of DRIVE_MULTI, in their order (R93, R115). -/

section

variable {js ss : List Word} {off : Bool}

theorem validateDriveMulti_of_length_mismatch (hLength : js.length ≠ ss.length) :
    validateDriveMulti js ss off = .error .lengthMismatch :=
  if_pos hLength

theorem validateDriveMulti_of_invalid_joint (hLength : js.length = ss.length) (hJoints : ∃ w ∈ js, 5 < w.toNat) :
    validateDriveMulti js ss off = .error .invalidJointIndex := by
  rw [validateDriveMulti, if_neg (not_not.mpr hLength), jointOperands_of_invalid hJoints]

theorem validateDriveMulti_of_motors_off (hLength : js.length = ss.length) (hJoints : ∀ w ∈ js, w.toNat ≤ 5)
    (hOff : off = true) : validateDriveMulti js ss off = .error .motorsDisabled := by
  obtain ⟨is, his⟩ := exists_joints_of_in_range hJoints
  simp only [validateDriveMulti, if_neg (not_not.mpr hLength), jointOperands_of_map his, if_pos hOff]

end

/-! What acceptance makes of it (R90, R114). -/

section

variable {s : State} {i : Instr} {k : Kind}

/-- A command that `validate` refuses changes `status` and `data` alone (R114). -/
theorem exec_of_validate_error (hIdle : s.seq = .idle) (e : Diagnostic) {v : Except Diagnostic (List MicroOp)}
    (hExec : exec i s = .next (s.acceptPlan k v)) (hRefused : v = .error e) :
    exec i s = .next { s with status := e.code, data := 0x00 } := by
  rw [hExec, hRefused, State.acceptPlan_error hIdle]
  rfl

/-- A plan is begun, and an empty one is completed at once: neither is a diagnostic (R90). -/
theorem State.acceptPlan_ok_status (hIdle : s.seq = .idle) (plan : List MicroOp) :
    (s.acceptPlan k (.ok plan)).status = statusBusy ∨ (s.acceptPlan k (.ok plan)).status = statusOK := by
  cases plan with
  | nil => exact .inr (by rw [State.acceptPlan_nil hIdle, State.finishAtOnce_status])
  | cons op ops => exact .inl (by rw [State.acceptPlan_plan hIdle (List.cons_ne_nil op ops), State.beginPlan_status])

end

/-! The obligations. -/

/-- Settles O26: whichever move comes next, it answers a next state. -/
theorem noStepFaultsOrRefuses : Obligations.NoStepFaultsOrRefuses := step_total

/-- Settles O19: command by command, each check of its `validate` in turn, and last the command that passes them all. -/
theorem firstDiagnosticIsReported : Obligations.FirstDiagnosticIsReported := by
  intro s j n d hdr js ss en hIdle
  obtain ⟨hAddress, hNoAddress⟩ := addressOfAnswers s j hIdle
  refine ⟨?stepJoint, ?stepDir, ?stepOff, ?stepValid, ?driveJoint, ?driveDir, ?driveCount, ?driveOff, ?driveValid,
    ?multiLength, ?multiJoint, ?multiOff, ?multiValid, hNoAddress, ?addressValid, ?energize, exec_illegal_idle hIdle hdr⟩
  case stepJoint =>
    exact fun hJoint => exec_of_validate_error hIdle .invalidJointIndex rfl (validateStep_of_invalid_joint hJoint)
  case stepDir =>
    exact fun hJoint hDir => exec_of_validate_error hIdle .invalidDirection rfl (validateStep_of_invalid_dir hJoint hDir)
  case stepOff =>
    exact fun hJoint hDir hOff =>
      exec_of_validate_error hIdle .motorsDisabled rfl (validateStep_of_motors_off hJoint hDir hOff)
  case stepValid =>
    intro hJoint hDir hOn
    obtain ⟨i, hi⟩ := exists_joint_of_in_range hJoint
    obtain ⟨dir, hd⟩ := exists_dir_of_in_range hDir
    exact ⟨_, exec_step_of_valid hIdle hi hd hOn, rfl⟩
  case driveJoint =>
    exact fun hJoint => exec_of_validate_error hIdle .invalidJointIndex rfl (validateDrive_of_invalid_joint hJoint)
  case driveDir =>
    exact fun hJoint hDir => exec_of_validate_error hIdle .invalidDirection rfl (validateDrive_of_invalid_dir hJoint hDir)
  case driveCount =>
    exact fun hJoint hDir hCount =>
      exec_of_validate_error hIdle .invalidStepCount rfl (validateDrive_of_invalid_count hJoint hDir hCount)
  case driveOff =>
    exact fun hJoint hDir hCount hOff =>
      exec_of_validate_error hIdle .motorsDisabled rfl (validateDrive_of_motors_off hJoint hDir hCount hOff)
  case driveValid =>
    intro hJoint hDir hCount hOn
    obtain ⟨i, hi⟩ := exists_joint_of_in_range hJoint
    obtain ⟨dir, hd⟩ := exists_dir_of_in_range hDir
    exact ⟨_, exec_drive_of_valid hIdle hi hd hCount hOn, rfl⟩
  case multiLength =>
    exact fun hLength =>
      exec_of_validate_error hIdle .lengthMismatch rfl (validateDriveMulti_of_length_mismatch hLength)
  case multiJoint =>
    exact fun hLength hJoints =>
      exec_of_validate_error hIdle .invalidJointIndex rfl (validateDriveMulti_of_invalid_joint hLength hJoints)
  case multiOff =>
    exact fun hLength hJoints hOff =>
      exec_of_validate_error hIdle .motorsDisabled rfl (validateDriveMulti_of_motors_off hLength hJoints hOff)
  case multiValid =>
    intro hLength hJoints hOn
    obtain ⟨is, his⟩ := exists_joints_of_in_range hJoints
    exact ⟨_, exec_driveMulti_of_valid his hLength hOn, State.acceptPlan_ok_status hIdle _⟩
  case addressValid =>
    intro hJoint
    obtain ⟨i, hi⟩ := exists_joint_of_in_range hJoint
    exact ⟨_, hAddress i hi, rfl⟩
  case energize => exact ⟨_, exec_setEnergized_idle hIdle en, rfl⟩

end Sys2Proof.Machine
end

section
/-! PROOFS. Reset and time (spec/70_reset_and_hazards.md R130, R131, R139, R144): the step that resets, the step that lets time pass,
and the writes of the output port after a reset. -/

namespace Sys2Proof.Machine

section

variable {s t : State}

theorem step_of_reset (hMove : s.nextMove = .reset) : step s = .next s.afterChoice.resetBlock := by
  rw [step, hMove]
  rfl

theorem step_of_tick {delta : Nat} (hMove : s.nextMove = .tick delta) :
    step s = .next (s.afterChoice.advanceTime delta) := by
  rw [step, hMove]
  rfl

theorem step_now_le (hStep : step s = .next t) : s.now ≤ t.now :=
  s.afterChoice_block.now.symm.trans_le (State.makeMove_now_le hStep)

/-- Time stands still in every move but a tick (R31, R144). -/
theorem step_now_of_not_tick (hStep : step s = .next t) (hTick : ∀ delta, s.nextMove ≠ .tick delta) : t.now = s.now := by
  rw [← s.afterChoice_block.now]
  rcases step_cases hStep with ⟨ws, _, rfl⟩ | ⟨b, _, rfl⟩ | ⟨_, hAccept⟩ | ⟨_, rfl⟩ | ⟨delta, hMove, _⟩ | ⟨_, rfl⟩
  · rfl
  · exact (s.afterChoice.presentByte_block b).now
  · obtain ⟨_, _, _, _, _, _, hNow, _⟩ := hAccept.frame
    exact hNow
  · obtain ⟨_, hNow, _⟩ := s.afterChoice.sequencerTurn_frame
    exact hNow
  · exact absurd hMove (hTick delta)
  · rfl

/-- `last` does not fall behind a time that it and the clock have reached: whatever writes it, writes the clock (R27). -/
theorem step_le_last {t0 : Nat} (hStep : step s = .next t) (hLast : t0 ≤ s.last) (hNow : t0 ≤ s.now) : t0 ≤ t.last := by
  by_cases hSame : t.last = s.last
  · rwa [hSame]
  · obtain ⟨hWritten, _⟩ := onlyPulsesWriteLast s t hStep hSame
    rwa [hWritten]

/-- Every byte that a step writes comes `T_MIN` or more after `last` (R84). -/
theorem step_portLog (hStep : step s = .next t) :
    ∃ new : List (Nat × Byte), t.portLog = s.portLog ++ new ∧ ∀ e ∈ new, s.last + s.tMin ≤ e.1 := by
  rcases portChangesOnlyByWholePulses s t hStep with ⟨hLog, _⟩ | ⟨_, hGate, _, b, _, hLog, _⟩
  · exact ⟨[], by rw [hLog, List.append_nil], nofun⟩
  · exact ⟨_, hLog, by simpa using hGate⟩

end

/-! What a reset is followed by (R139). -/

/-- How `u` may follow a reset made in `s`: neither the clock nor `last` is behind the time of the reset, and every byte written since
came `T_MIN` or more after it. -/
structure AfterReset (s u : State) : Prop where
  cfg : u.cfg = s.cfg
  now : s.now ≤ u.now
  last : s.now ≤ u.last
  writes : ∃ new : List (Nat × Byte), u.portLog = s.portLog ++ new ∧ ∀ e ∈ new, s.now + s.tMin ≤ e.1

theorem AfterReset.of_resetBlock {s t : State} (same : SameBlock t s.resetBlock) : AfterReset s t where
  cfg := same.cfg
  now := same.now.ge
  last := same.last.ge
  writes := ⟨[], by rw [same.portLog, State.resetBlock_portLog, List.append_nil], nofun⟩

/-- The gate is at `last + T_MIN`, so it opens no earlier than `T_MIN` after the reset. -/
theorem AfterReset.step {s t u : State} (h : AfterReset s t) (hStep : step t = .next u) : AfterReset s u := by
  refine ⟨(step_blockStep hStep).cfg.trans h.cfg, h.now.trans (step_now_le hStep), step_le_last hStep h.last h.now, ?_⟩
  obtain ⟨old, hOld, hOldLate⟩ := h.writes
  obtain ⟨new, hNew, hNewLate⟩ := step_portLog hStep
  refine ⟨old ++ new, by rw [hNew, hOld, List.append_assoc], fun e he => ?_⟩
  rcases List.mem_append.mp he with hEarlier | hAdded
  · exact hOldLate e hEarlier
  · calc s.now + s.tMin ≤ t.last + s.tMin := Nat.add_le_add_right h.last _
      _ = t.last + t.tMin := by rw [s.tMin_congr t h.cfg]
      _ ≤ e.1 := hNewLate e hAdded

theorem AfterReset.steps {s t u : State} (h : AfterReset s t) (hSteps : Steps t u) : AfterReset s u := by
  induction hSteps with
  | refl => exact h
  | tail _ hStep ih => exact ih.step hStep

/-! The obligations. -/

/-- Settles O57, by induction on the steps after the reset. -/
theorem noPulseSoonAfterReset : Obligations.NoPulseSoonAfterReset := fun _ _ _ hMove hStep hSteps =>
  ((AfterReset.of_resetBlock (step_reset hMove hStep)).steps hSteps).writes

/-- Settles O35: a tick is an advance of time, and each other move keeps the time that the choice of the move left. -/
theorem onlyTicksChangeTime : Obligations.OnlyTicksChangeTime := by
  refine fun s t hStep => ⟨fun delta hMove => ?_, step_now_of_not_tick hStep⟩
  obtain rfl : s.afterChoice.advanceTime delta = t := Host.Outcome.next.inj ((step_of_tick hMove).symm.trans hStep)
  rw [State.advanceTime, s.afterChoice_block.now]

/-- Settles O32: the step resets the block in the state after the choice, whose time is that of `s`. -/
theorem resetTransition : Obligations.ResetTransition := by
  intro s hMove
  refine ⟨_, step_of_reset hMove, fun j => ?_, ?_⟩
  · have hJoint : s.afterChoice.resetBlock.joints[j] = CommutationState.initial := initial_joints_getElem j
    rw [State.phase, State.pos, State.energized, hJoint]
    exact ⟨rfl, rfl, rfl⟩
  · rw [← s.afterChoice_block.now]
    rfl

end Sys2Proof.Machine
end
